-- ==== Sys2Proof/Word.lean ====
section
/-! DEFINITION. The bit-vector types of the spec: bytes, 16-bit words, nibbles and 12-bit addresses
(spec/00_scope.md R6, R13; spec/30_encoding.md R71). -/

namespace Sys2Proof

/-- An 8-bit value: a general register, a timer, a memory byte, an immediate `kk` (R6, R71). -/
abbrev Byte := BitVec 8

/-- A 16-bit value: an instruction, `I`, `pc`, a stack entry (R6). -/
abbrev Word := BitVec 16

/-- A 4-bit field: a register index `x` or `y`, a count `n`, an opcode nibble, a key code (R71, R8). -/
abbrev Nibble := BitVec 4

/-- A 12-bit absolute address `nnn` (R71, R73). -/
abbrev Addr := BitVec 12

end Sys2Proof
end

