-- ==== Sys2Proof/Config.lean ====
section
/-! DEFINITION. The parameters of the block (spec/00_scope.md R6), what an unlisted memory byte reads as
(`MEM_INIT`, R40), and the free values: the inputs a step samples when none is scripted (R8, R9). -/

namespace Sys2Proof

/-- `MEM_SIZE` (R6): every address is taken modulo this. -/
abbrev Config.memSize : Nat := 4096

/-- `ROM_BASE` (R6): address of the first program byte and the reset value of `pc` (R40). -/
abbrev Config.romBase : Nat := 0x200

/-- `STACK_DEPTH` (R6). -/
abbrev Config.stackDepth : Nat := 12

/-- `GLYPH_STRIDE` (R6): the multiplier of LD F,Vx. -/
abbrev Config.glyphStride : Nat := 5

/-- `SUBN_PRESENT` (R6, 90_conflicts C1, 92 D7): true on this hardware; `decodeWith false` is the other reading. -/
abbrev Config.subnPresent : Bool := true

/-- `MEM_INIT` (R6, R40, 92 D3): what a byte that nothing has written reads as.
The parameter is OPEN and its default is all zero. DESIGN CHOICE (log entry 3), unsafe for a claim about
`State.reset` that leans on the zero; what resets or launches a block takes the image as an argument (Machine/Ports.lean). -/
def Config.memInit (_address : Nat) : Byte := 0

/-- FREE VALUE: the pending key of step number `n` when the environment's script holds none (R8, U13; log entry 1).
Opaque, so nothing can be proved of it. DESIGN CHOICE of form, safe. -/
opaque Config.freeKey : Nat → Option Nibble

/-- FREE VALUE: the random byte of step number `n` when the environment's script holds none (R9, R191, U12; log
entry 1). Opaque, so nothing can be proved of it. DESIGN CHOICE of form, safe. -/
opaque Config.freeRnd : Nat → Byte

end Sys2Proof
end

