-- ==== Sys2Proof/Syntax.lean ====
section
/-! DEFINITION. The 34 instructions, one constructor per row of spec/opcode_table.json, in the table's order
(spec/30_encoding.md R87). Operand fields are those of R71, each unsigned and used as it is (R73). -/

namespace Sys2Proof

inductive Instr where
  /-- CLS, `00E0`: clear the frame buffer (R195). -/
  | cls
  /-- RET, `00EE`: subroutine return (R123). -/
  | ret
  /-- SYS nnn, `0nnn` other than `00E0` and `00EE`: legacy no-op (R124). -/
  | sys (nnn : Addr)
  /-- JP nnn, `1nnn` (R120). -/
  | jp (nnn : Addr)
  /-- CALL nnn, `2nnn` (R122). -/
  | call (nnn : Addr)
  /-- SE Vx,kk, `3xkk` (R131). -/
  | seImm (x : Nibble) (kk : Byte)
  /-- SNE Vx,kk, `4xkk` (R132). -/
  | sneImm (x : Nibble) (kk : Byte)
  /-- SE Vx,Vy, `5xy0` (R133). -/
  | seReg (x y : Nibble)
  /-- LD Vx,kk, `6xkk` (R140). -/
  | ldImm (x : Nibble) (kk : Byte)
  /-- ADD Vx,kk, `7xkk` (R161). -/
  | addImm (x : Nibble) (kk : Byte)
  /-- LD Vx,Vy, `8xy0` (R141). -/
  | ldReg (x y : Nibble)
  /-- OR Vx,Vy, `8xy1` (R165). -/
  | orReg (x y : Nibble)
  /-- AND Vx,Vy, `8xy2` (R164). -/
  | andReg (x y : Nibble)
  /-- XOR Vx,Vy, `8xy3` (R166). -/
  | xorReg (x y : Nibble)
  /-- ADD Vx,Vy, `8xy4` (R160). -/
  | addReg (x y : Nibble)
  /-- SUB Vx,Vy, `8xy5` (R162). -/
  | subReg (x y : Nibble)
  /-- SHR Vx, `8xy6`; the field `y` is in the word and is ignored (R167). -/
  | shr (x y : Nibble)
  /-- SUBN Vx,Vy, `8xy7` (R163). -/
  | subnReg (x y : Nibble)
  /-- SHL Vx, `8xyE`; the field `y` is in the word and is ignored (R168). -/
  | shl (x y : Nibble)
  /-- SNE Vx,Vy, `9xy0` (R134). -/
  | sneReg (x y : Nibble)
  /-- LD I,nnn, `Annn` (R142). -/
  | ldI (nnn : Addr)
  /-- JP V0,nnn, `Bnnn` (R121). -/
  | jpV0 (nnn : Addr)
  /-- RND Vx,kk, `Cxkk` (R190). -/
  | rnd (x : Nibble) (kk : Byte)
  /-- DRW Vx,Vy,n, `Dxyn` (R182). -/
  | drw (x y n : Nibble)
  /-- SKP Vx, `Ex9E` (R135). -/
  | skp (x : Nibble)
  /-- SKNP Vx, `ExA1` (R136). -/
  | sknp (x : Nibble)
  /-- LD Vx,DT, `Fx07` (R147). -/
  | ldVxDT (x : Nibble)
  /-- LD Vx,K, `Fx0A` (R151). -/
  | ldVxK (x : Nibble)
  /-- LD DT,Vx, `Fx15` (R148). -/
  | ldDTVx (x : Nibble)
  /-- LD ST,Vx, `Fx18` (R149). -/
  | ldSTVx (x : Nibble)
  /-- LD F,Vx, `Fx29` (R146). -/
  | ldFVx (x : Nibble)
  /-- LD B,Vx, `Fx33` (R145). -/
  | ldBVx (x : Nibble)
  /-- LD [I],Vx, `Fx55`: block store (R143). -/
  | ldMemVx (x : Nibble)
  /-- LD Vx,[I], `Fx65`: block load (R144). -/
  | ldVxMem (x : Nibble)
  deriving DecidableEq, Repr

end Sys2Proof
end

