-- ==== Sys2Proof/WellFormed.lean ====
section
/-! DEFINITION. Which terms of `Instr` some word decodes to. Every value of every operand field is legal (R73), so
there are two checks: SYS does not stand for the two words that are CLS and RET (R76), and SUBN exists only where
`SUBN_PRESENT` is true (R6, R77). -/

namespace Sys2Proof

/-- Well-formedness for a given value of the parameter `SUBN_PRESENT` (R6). -/
def Instr.wfWith (subn : Bool) : Instr → Bool
  | .cls => true
  | .ret => true
  | .sys nnn => decide (nnn ≠ 0x0E0#12) && decide (nnn ≠ 0x0EE#12)
  | .jp _ => true
  | .call _ => true
  | .seImm _ _ => true
  | .sneImm _ _ => true
  | .seReg _ _ => true
  | .ldImm _ _ => true
  | .addImm _ _ => true
  | .ldReg _ _ => true
  | .orReg _ _ => true
  | .andReg _ _ => true
  | .xorReg _ _ => true
  | .addReg _ _ => true
  | .subReg _ _ => true
  | .shr _ _ => true
  | .subnReg _ _ => subn
  | .shl _ _ => true
  | .sneReg _ _ => true
  | .ldI _ => true
  | .jpV0 _ => true
  | .rnd _ _ => true
  | .drw _ _ _ => true
  | .skp _ => true
  | .sknp _ => true
  | .ldVxDT _ => true
  | .ldVxK _ => true
  | .ldDTVx _ => true
  | .ldSTVx _ => true
  | .ldFVx _ => true
  | .ldBVx _ => true
  | .ldMemVx _ => true
  | .ldVxMem _ => true

/-- Well-formedness on this hardware, where `SUBN_PRESENT` is true. -/
abbrev Instr.wf (i : Instr) : Bool := i.wfWith Config.subnPresent

end Sys2Proof
end

