-- ==== Sys2Proof/Decode.lean ====
section
/-! DEFINITION. The decoder (spec/30_encoding.md R71 to R84), total on every word and on every list of bytes and
rejecting by name, and after it the encoder, written from the same encodings (R87). The opcode numbers are D6, the
invalid words D8 and D9 (log entry 4, UNVERIFIED, unsafe for the numbers). -/

namespace Sys2Proof

/-! ### Fields (R71) -/

/-- `op`, bits 15:12. -/
def opOf (w : Word) : Nibble := w.extractLsb' 12 4

/-- `x`, bits 11:8. -/
def xOf (w : Word) : Nibble := w.extractLsb' 8 4

/-- `y`, bits 7:4. -/
def yOf (w : Word) : Nibble := w.extractLsb' 4 4

/-- `n`, bits 3:0. -/
def nOf (w : Word) : Nibble := w.extractLsb' 0 4

/-- `kk`, bits 7:0. -/
def kkOf (w : Word) : Byte := w.extractLsb' 0 8

/-- `nnn`, bits 11:0. -/
def nnnOf (w : Word) : Addr := w.extractLsb' 0 12

/-! ### The decode tree (R74) -/

/-- What decoding a word yields: a known variant, or the explicit invalid-instruction signal that carries the raw
instruction (R81, R84). -/
inductive Decoded where
  | ok (i : Instr)
  | invalid (raw : Word)
  deriving DecidableEq, Repr

/-- `op` = 0: the full instruction is compared (R76). -/
def decodeZero (w : Word) : Decoded :=
  if w = 0x00E0#16 then .ok .cls
  else if w = 0x00EE#16 then .ok .ret
  else .ok (.sys (nnnOf w))

/-- `op` = 5: valid only with `n` = 0 (R78). -/
def decodeFive (w : Word) : Decoded :=
  if nOf w = 0x0#4 then .ok (.seReg (xOf w) (yOf w)) else .invalid w

/-- `op` = 8: dispatch on `n` (R77); `8xy7` exists where `SUBN_PRESENT` is true. -/
def decodeEight (subn : Bool) (w : Word) : Decoded :=
  if nOf w = 0x0#4 then .ok (.ldReg (xOf w) (yOf w))
  else if nOf w = 0x1#4 then .ok (.orReg (xOf w) (yOf w))
  else if nOf w = 0x2#4 then .ok (.andReg (xOf w) (yOf w))
  else if nOf w = 0x3#4 then .ok (.xorReg (xOf w) (yOf w))
  else if nOf w = 0x4#4 then .ok (.addReg (xOf w) (yOf w))
  else if nOf w = 0x5#4 then .ok (.subReg (xOf w) (yOf w))
  else if nOf w = 0x6#4 then .ok (.shr (xOf w) (yOf w))
  else if nOf w = 0x7#4 then (if subn then .ok (.subnReg (xOf w) (yOf w)) else .invalid w)
  else if nOf w = 0xE#4 then .ok (.shl (xOf w) (yOf w))
  else .invalid w

/-- `op` = 9: valid only with `n` = 0 (R78). -/
def decodeNine (w : Word) : Decoded :=
  if nOf w = 0x0#4 then .ok (.sneReg (xOf w) (yOf w)) else .invalid w

/-- `op` = 0xE: dispatch on `kk` (R79). -/
def decodeE (w : Word) : Decoded :=
  if kkOf w = 0x9E#8 then .ok (.skp (xOf w))
  else if kkOf w = 0xA1#8 then .ok (.sknp (xOf w))
  else .invalid w

/-- `op` = 0xF: dispatch on `kk` (R80); `Fx1E` is invalid here. -/
def decodeF (w : Word) : Decoded :=
  if kkOf w = 0x07#8 then .ok (.ldVxDT (xOf w))
  else if kkOf w = 0x0A#8 then .ok (.ldVxK (xOf w))
  else if kkOf w = 0x15#8 then .ok (.ldDTVx (xOf w))
  else if kkOf w = 0x18#8 then .ok (.ldSTVx (xOf w))
  else if kkOf w = 0x29#8 then .ok (.ldFVx (xOf w))
  else if kkOf w = 0x33#8 then .ok (.ldBVx (xOf w))
  else if kkOf w = 0x55#8 then .ok (.ldMemVx (xOf w))
  else if kkOf w = 0x65#8 then .ok (.ldVxMem (xOf w))
  else .invalid w

/-- The decode tree of R74 for a given `SUBN_PRESENT`: dispatch on the top nibble (R75). The sixteen values of `op`
are all used, so the last branch is `op` = 0xF. -/
def decodeWith (subn : Bool) (w : Word) : Decoded :=
  if opOf w = 0x0#4 then decodeZero w
  else if opOf w = 0x1#4 then .ok (.jp (nnnOf w))
  else if opOf w = 0x2#4 then .ok (.call (nnnOf w))
  else if opOf w = 0x3#4 then .ok (.seImm (xOf w) (kkOf w))
  else if opOf w = 0x4#4 then .ok (.sneImm (xOf w) (kkOf w))
  else if opOf w = 0x5#4 then decodeFive w
  else if opOf w = 0x6#4 then .ok (.ldImm (xOf w) (kkOf w))
  else if opOf w = 0x7#4 then .ok (.addImm (xOf w) (kkOf w))
  else if opOf w = 0x8#4 then decodeEight subn w
  else if opOf w = 0x9#4 then decodeNine w
  else if opOf w = 0xA#4 then .ok (.ldI (nnnOf w))
  else if opOf w = 0xB#4 then .ok (.jpV0 (nnnOf w))
  else if opOf w = 0xC#4 then .ok (.rnd (xOf w) (kkOf w))
  else if opOf w = 0xD#4 then .ok (.drw (xOf w) (yOf w) (nOf w))
  else if opOf w = 0xE#4 then decodeE w
  else decodeF w

/-- `Decode` (R74) on this hardware. -/
def decode (w : Word) : Decoded := decodeWith Config.subnPresent w

/-! ### Decoding bytes (R70: two bytes, high byte first) -/

/-- Why a list of bytes holds no instruction at its head. -/
inductive DecodeError where
  /-- The first two bytes are an invalid word (R81). -/
  | invalidInstruction (raw : Word)
  /-- Fewer than the two bytes of an instruction are there (R70). -/
  | truncated
  deriving DecidableEq, Repr

/-- The word whose high byte is `hi` and low byte `lo` (R53, R70). -/
def wordOfBytes (hi lo : Byte) : Word := hi ++ lo

/-- The high byte of a word, the one stored at the lower address (R70). -/
def highByte (w : Word) : Byte := w.extractLsb' 8 8

/-- The low byte of a word. -/
def lowByte (w : Word) : Byte := w.extractLsb' 0 8

/-- Decodes the instruction at the head of a list of bytes and answers it with the rest of the list. -/
def decodeBytes : List Byte → Except DecodeError (Instr × List Byte)
  | hi :: lo :: rest =>
    match decode (wordOfBytes hi lo) with
    | .ok i => .ok (i, rest)
    | .invalid w => .error (.invalidInstruction w)
  | [_] => .error .truncated
  | [] => .error .truncated

/-- The instruction the decoder reads from the table word `w` of `nbits` bits, laid out as the hardware stores it:
high byte first. -/
def decodeTableWord (nbits w : Nat) : Option Instr :=
  let word : Word := BitVec.ofNat 16 (w % 2 ^ nbits)
  match decodeBytes [highByte word, lowByte word] with
  | .ok (i, _) => some i
  | .error _ => none

/-! ### The encoder (R72, R87) -/

/-- Format `A`: opcode nibble and `nnn`. -/
def formatA (op : Nibble) (nnn : Addr) : Word := op ++ nnn

/-- Format `XK`: opcode nibble, `x`, `kk`. Format `X` is the same with a fixed `kk`. -/
def formatXK (op x : Nibble) (kk : Byte) : Word := op ++ x ++ kk

/-- Format `XYN`: opcode nibble, `x`, `y`, `n`. Format `XY` is the same with a fixed `n`. -/
def formatXYN (op x y n : Nibble) : Word := op ++ x ++ y ++ n

/-- The 16-bit word of an instruction (R87). -/
def encode : Instr → Word
  | .cls => 0x00E0#16
  | .ret => 0x00EE#16
  | .sys nnn => formatA 0x0#4 nnn
  | .jp nnn => formatA 0x1#4 nnn
  | .call nnn => formatA 0x2#4 nnn
  | .seImm x kk => formatXK 0x3#4 x kk
  | .sneImm x kk => formatXK 0x4#4 x kk
  | .seReg x y => formatXYN 0x5#4 x y 0x0#4
  | .ldImm x kk => formatXK 0x6#4 x kk
  | .addImm x kk => formatXK 0x7#4 x kk
  | .ldReg x y => formatXYN 0x8#4 x y 0x0#4
  | .orReg x y => formatXYN 0x8#4 x y 0x1#4
  | .andReg x y => formatXYN 0x8#4 x y 0x2#4
  | .xorReg x y => formatXYN 0x8#4 x y 0x3#4
  | .addReg x y => formatXYN 0x8#4 x y 0x4#4
  | .subReg x y => formatXYN 0x8#4 x y 0x5#4
  | .shr x y => formatXYN 0x8#4 x y 0x6#4
  | .subnReg x y => formatXYN 0x8#4 x y 0x7#4
  | .shl x y => formatXYN 0x8#4 x y 0xE#4
  | .sneReg x y => formatXYN 0x9#4 x y 0x0#4
  | .ldI nnn => formatA 0xA#4 nnn
  | .jpV0 nnn => formatA 0xB#4 nnn
  | .rnd x kk => formatXK 0xC#4 x kk
  | .drw x y n => formatXYN 0xD#4 x y n
  | .skp x => formatXK 0xE#4 x 0x9E#8
  | .sknp x => formatXK 0xE#4 x 0xA1#8
  | .ldVxDT x => formatXK 0xF#4 x 0x07#8
  | .ldVxK x => formatXK 0xF#4 x 0x0A#8
  | .ldDTVx x => formatXK 0xF#4 x 0x15#8
  | .ldSTVx x => formatXK 0xF#4 x 0x18#8
  | .ldFVx x => formatXK 0xF#4 x 0x29#8
  | .ldBVx x => formatXK 0xF#4 x 0x33#8
  | .ldMemVx x => formatXK 0xF#4 x 0x55#8
  | .ldVxMem x => formatXK 0xF#4 x 0x65#8

/-- The two bytes of an instruction in the order they are stored (R70). -/
def encodeBytes (i : Instr) : List Byte := [highByte (encode i), lowByte (encode i)]

/-! ### The opcode table's masks (R87) -/

/-- The row's `mask`: the bits that are fixed. -/
def tableMask : Instr → Word
  | .cls | .ret => 0xFFFF#16
  | .sys _ | .jp _ | .call _ | .ldI _ | .jpV0 _ => 0xF000#16
  | .seImm _ _ | .sneImm _ _ | .ldImm _ _ | .addImm _ _ | .rnd _ _ | .drw _ _ _ => 0xF000#16
  | .seReg _ _ | .sneReg _ _ | .ldReg _ _ | .orReg _ _ | .andReg _ _ | .xorReg _ _ => 0xF00F#16
  | .addReg _ _ | .subReg _ _ | .shr _ _ | .subnReg _ _ | .shl _ _ => 0xF00F#16
  | .skp _ | .sknp _ | .ldVxDT _ | .ldVxK _ | .ldDTVx _ | .ldSTVx _ => 0xF0FF#16
  | .ldFVx _ | .ldBVx _ | .ldMemVx _ | .ldVxMem _ => 0xF0FF#16

/-- The row's `match`: the values of the fixed bits. -/
def tableMatch : Instr → Word
  | .cls => 0x00E0#16
  | .ret => 0x00EE#16
  | .sys _ => 0x0000#16
  | .jp _ => 0x1000#16
  | .call _ => 0x2000#16
  | .seImm _ _ => 0x3000#16
  | .sneImm _ _ => 0x4000#16
  | .seReg _ _ => 0x5000#16
  | .ldImm _ _ => 0x6000#16
  | .addImm _ _ => 0x7000#16
  | .ldReg _ _ => 0x8000#16
  | .orReg _ _ => 0x8001#16
  | .andReg _ _ => 0x8002#16
  | .xorReg _ _ => 0x8003#16
  | .addReg _ _ => 0x8004#16
  | .subReg _ _ => 0x8005#16
  | .shr _ _ => 0x8006#16
  | .subnReg _ _ => 0x8007#16
  | .shl _ _ => 0x800E#16
  | .sneReg _ _ => 0x9000#16
  | .ldI _ => 0xA000#16
  | .jpV0 _ => 0xB000#16
  | .rnd _ _ => 0xC000#16
  | .drw _ _ _ => 0xD000#16
  | .skp _ => 0xE09E#16
  | .sknp _ => 0xE0A1#16
  | .ldVxDT _ => 0xF007#16
  | .ldVxK _ => 0xF00A#16
  | .ldDTVx _ => 0xF015#16
  | .ldSTVx _ => 0xF018#16
  | .ldFVx _ => 0xF029#16
  | .ldBVx _ => 0xF033#16
  | .ldMemVx _ => 0xF055#16
  | .ldVxMem _ => 0xF065#16

end Sys2Proof
end

