-- ==== Sys2Proof/Machine/State.lean ====
section
/-! DEFINITION. The state of the block, all that the spec gives it (spec/10_state.md R20 to R42, with the boot phase
of spec/70_reset_and_hazards.md R231 and R233), the reset state (R40, R230), and how a step can stop. -/

namespace Sys2Proof.Machine

/-- The frame buffer: 32 rows of 64 one-bit cells, `fb[y][x]` (R31). -/
abbrev FrameBuffer := Vector (Vector Bool 64) 32

/-- The memory array (R32): the bytes that differ from `Config.memInit`, by strictly rising address below 4096
(`Memory.wf`); an unlisted address reads as `Config.memInit`. -/
abbrev Memory := List Host.Cell

/-- The value of the field `fault_code` (R33). -/
inductive FaultCode where
  | none
  | invalidInstruction
  | stackOverflow
  | stackUnderflow
  deriving DecidableEq, Repr

/-- What the environment presents at one step: the pending key (R8) and the random byte (R9). -/
structure StepInput where
  key : Option Nibble
  rnd : Byte
  deriving DecidableEq, Repr

structure State where
  /-- The general registers `V[0]` to `V[15]` (R20); `V[15]` is the flag register `VF` (R34). -/
  v : Vector Byte 16
  /-- The index register `I` (R22). -/
  index : Word
  /-- The program counter (R23). -/
  pc : Word
  /-- The return-address stack (R25). -/
  stack : Vector Word 12
  /-- The stack pointer, the number of live entries, 0 to 12 (R25; log entry 8). -/
  sp : Fin 13
  /-- The delay timer `DT` (R28). -/
  dt : Byte
  /-- The sound timer `ST` (R29). -/
  st : Byte
  /-- The frame buffer (R31). -/
  fb : FrameBuffer
  /-- The memory (R32). -/
  mem : Memory
  /-- The block has halted after a fatal condition (R33). -/
  halted : Bool
  /-- Which fatal condition (R33). -/
  faultCode : FaultCode
  /-- The instruction that was executing when the fault was raised (R33). -/
  faultInstr : Word
  /-- The stack-overflow flag (R33). -/
  stkOvf : Bool
  /-- The stack-underflow flag (R33). -/
  stkUnf : Bool
  /-- The block is in the boot phase: after reset, before the first step (R231). -/
  boot : Bool
  /-- The load pointer of the boot phase (R233). -/
  ldPtr : BitVec 12
  /-- The MODEL's own field (log entry 1): the samples the environment will present, the next step's first. -/
  inputs : List StepInput
  /-- The MODEL's own field (log entry 1): how many steps have been taken; numbers the free values of `Config`. -/
  steps : Nat
  deriving DecidableEq, Repr

/-- How a step stops. -/
inductive Fault where
  /-- Raised by `step` in a halted state: a halted block takes no step and has no successor (R208, R222, U3; log
  entry 5), and the fault surfaces `fault_code` and `fault_instr` (R12). Safe: the model stops where the block
  stands still until reset. -/
  | halted (code : FaultCode) (instr : Word)
  deriving DecidableEq, Repr

/-- Why an instruction has no meaning. -/
inductive Refusal where
  /-- Raised by an arm of `exec` whose instruction has no meaning yet; no arm of this model does. Safe. -/
  | notModelled (mnemonic : String)
  deriving DecidableEq, Repr

/-- The state right after reset (R40, R41, R230): registers, timers, stack and frame buffer clear, `pc` and the load
pointer at 0x200, no fault, boot phase, memory at `MEM_INIT` (nothing listed). The values are D2, D4 and D27
(log entry 2, UNVERIFIED, unsafe) and D3 (log entry 3, DESIGN CHOICE, unsafe). `inputs` and `steps` are the model's
own fields (log entry 1). -/
def State.reset : State where
  v := Vector.replicate 16 0
  index := 0
  pc := BitVec.ofNat 16 Config.romBase
  stack := Vector.replicate 12 0
  sp := 0
  dt := 0
  st := 0
  fb := Vector.replicate 32 (Vector.replicate 64 false)
  mem := []
  halted := false
  faultCode := .none
  faultInstr := 0
  stkOvf := false
  stkUnf := false
  boot := true
  ldPtr := BitVec.ofNat 12 Config.romBase
  inputs := []
  steps := 0

end Sys2Proof.Machine
end

