-- ==== Sys2Proof/Machine/Ops.lean ====
section
/-! DEFINITION. The named operations over registers, memory, stack and frame buffer, the parts common to every step
(timer tick, commit of `pc`, fetch), and fault entry, the one way the block takes a fatal condition. -/

namespace Sys2Proof.Machine

/-! ### General registers (R20) -/

/-- `V[x]`. -/
def State.readV (s : State) (x : Nibble) : Byte := s.v[x.toNat]'(x.isLt)

/-- `V[x] <- b`. -/
def State.writeV (s : State) (x : Nibble) (b : Byte) : State := { s with v := s.v.set x.toNat b x.isLt }

/-- `VF`, the flag register `V[15]` (R34). -/
def flagReg : Nibble := 0xF#4

/-! ### Single-field writes -/

/-- `I <- w` (R22). -/
def State.setIndex (s : State) (w : Word) : State := { s with index := w }

/-- `DT <- b` (R28). -/
def State.setDT (s : State) (b : Byte) : State := { s with dt := b }

/-- `ST <- b` (R29). -/
def State.setST (s : State) (b : Byte) : State := { s with st := b }

/-- The frame buffer replaced (R31). -/
def State.setFb (s : State) (fb : FrameBuffer) : State := { s with fb := fb }

/-! ### Memory (R50 to R53) -/

/-- The byte a memory holds at an address below 4096; an unlisted address reads as `MEM_INIT`. -/
def Memory.lookup : Memory → Nat → Byte
  | [], a => Config.memInit a
  | (k, b) :: rest, a => if k = a then b else Memory.lookup rest a

/-- Puts a cell in its place by rising address. -/
def Memory.place : Memory → Nat → Byte → Memory
  | [], a, b => [(a, b)]
  | (k, c) :: rest, a, b => if a < k then (a, b) :: (k, c) :: rest else (k, c) :: Memory.place rest a b

/-- Stores a byte at an address below 4096 and keeps the canonical form: the old cell of that address goes, and the
new one is listed unless it equals what an unlisted address reads as. -/
def Memory.store (m : Memory) (a : Nat) (b : Byte) : Memory :=
  let others := m.filter (fun c => decide (c.1 ≠ a))
  if b = Config.memInit a then others else Memory.place others a b

/-- The canonical form: addresses strictly rising and below 4096, no cell equal to what an unlisted address reads as. -/
def Memory.wf : Memory → Bool
  | [] => true
  | (k, b) :: rest =>
    decide (k < Config.memSize) && decide (b ≠ Config.memInit k) && rest.all (fun c => decide (k < c.1)) &&
      Memory.wf rest

/-- The address a byte access reaches: every address wraps modulo 4096 (R51). -/
def wrapAddr (addr : Nat) : Nat := addr % Config.memSize

/-- `MemRead(addr, 1)` (R51). -/
def State.memRead (s : State) (addr : Nat) : Byte := Memory.lookup s.mem (wrapAddr addr)

/-- `MemWrite(addr, 1, b)` (R52). -/
def State.memWrite (s : State) (addr : Nat) (b : Byte) : State := { s with mem := Memory.store s.mem (wrapAddr addr) b }

/-- `MemRead(addr, 2)` (R53): big-endian, each byte address wraps on its own. -/
def State.memReadWord (s : State) (addr : Nat) : Word := wordOfBytes (s.memRead addr) (s.memRead (addr + 1))

/-- Writes the `count` bytes `byteAt 0`, `byteAt 1`, ... at `addr`, `addr + 1`, ..., in ascending order (R66, R143,
R145). -/
def State.memWriteBlock (s : State) (addr : Nat) (byteAt : Nat → Byte) : Nat → State
  | 0 => s
  | count + 1 => (s.memWriteBlock addr byteAt count).memWrite (addr + count) (byteAt count)

/-- Fetch (R101): the word at `pc`, without advancing it. -/
def State.fetch (s : State) : Word := s.memReadWord s.pc.toNat

/-- The word `w` stored, high byte first, where the next fetch reads it. -/
def State.placeAtPc (s : State) (w : Word) : State :=
  (s.memWrite s.pc.toNat (highByte w)).memWrite (s.pc.toNat + 1) (lowByte w)

/-! ### Stack (R25 to R27) -/

/-- `Push(v)` (R26): `none` stands for `raise StackOverflow`, and then nothing has changed. That the pointer counts the
live entries is D22 (log entry 21, UNVERIFIED, safe). -/
def State.push (s : State) (w : Word) : Option State :=
  if h : s.sp.val < 12 then
    some { s with stack := s.stack.set s.sp.val w h, sp := ⟨s.sp.val + 1, Nat.succ_lt_succ h⟩ }
  else none

/-- `Pop()` (R27): `none` stands for `raise StackUnderflow`; the popped entry's bits stay in the array. -/
def State.pop (s : State) : Option (Word × State) :=
  if h : 0 < s.sp.val then
    some (s.stack[s.sp.val - 1]'(by omega), { s with sp := ⟨s.sp.val - 1, by omega⟩ })
  else none

/-! ### Frame buffer (R31, R180) -/

/-- `fb[cy][cx]`. -/
def fbGet (fb : FrameBuffer) (cx : BitVec 6) (cy : BitVec 5) : Bool := (fb[cy.toNat]'(cy.isLt))[cx.toNat]'(cx.isLt)

/-- `fb[cy][cx] <- b`. -/
def fbSet (fb : FrameBuffer) (cx : BitVec 6) (cy : BitVec 5) (b : Bool) : FrameBuffer :=
  fb.set cy.toNat ((fb[cy.toNat]'(cy.isLt)).set cx.toNat b cx.isLt) cy.isLt

/-- The cell `fb[cy][cx]` of a state, which the read port shows (R11). -/
def State.pixel (s : State) (cx : BitVec 6) (cy : BitVec 5) : Bool := fbGet s.fb cx cy

/-- Every cell off (R195). -/
def fbClear : FrameBuffer := Vector.replicate 32 (Vector.replicate 64 false)

/-- `TogglePixel(cx, cy)` (R180): the flipped buffer, and whether the flip was on to off. -/
def togglePixel (fb : FrameBuffer) (cx : BitVec 6) (cy : BitVec 5) : FrameBuffer × Bool :=
  (fbSet fb cx cy (!fbGet fb cx cy), fbGet fb cx cy)

/-! ### Inputs of a step (R8, R9, R107; log entry 1) -/

/-- What is sampled at the coming step: the script's next sample, or free values when the script is empty. -/
def State.sample (s : State) : StepInput :=
  match s.inputs with
  | i :: _ => i
  | [] => { key := Config.freeKey s.steps, rnd := Config.freeRnd s.steps }

/-- `key`, the pending key sampled at this step (R8). -/
def State.key (s : State) : Option Nibble := s.sample.key

/-- `rnd`, the random byte sampled at this step (R9). -/
def State.rnd (s : State) : Byte := s.sample.rnd

/-- The environment presents a sample at the coming step. -/
def State.present (s : State) (i : StepInput) : State := { s with inputs := i :: s.inputs }

/-! ### Parts of every step (R103 to R105) -/

/-- One timer's decrement, floored at zero (R103). -/
def tickDown (b : Byte) : Byte := if b = 0#8 then 0#8 else b - 1#8

/-- `TimerTick()` (R103). -/
def State.timerTick (s : State) : State := { s with dt := tickDown s.dt, st := tickDown s.st }

/-- `next mod 4096` (R105). -/
def wrapPc (next : Word) : Word := BitVec.ofNat 16 (next.toNat % Config.memSize)

/-- `pc <- next mod 4096`, the program-counter commit (R105). -/
def State.commitPc (s : State) (next : Word) : State := { s with pc := wrapPc next }

/-- The default end of an instruction: `next` = `pc + 2` (R104). -/
def State.advance (s : State) : State := s.commitPc (s.pc + 2#16)

/-- The end of a conditional skip: `next` = `pc + 4` if the condition holds, else `pc + 2` (R130). -/
def State.skipIf (s : State) (c : Bool) : State := s.commitPc (if c then s.pc + 4#16 else s.pc + 2#16)

/-- What ends every step beside its instruction: the sample is used up, the step is counted (log entry 1), and the
boot phase is over (R231), in a step that faults too (log entry 17, DEDUCED, unsafe). -/
def State.endStep (s : State) : State := { s with inputs := s.inputs.tail, steps := s.steps + 1, boot := false }

/-! ### Fatal conditions (R200 to R208) -/

/-- The number of a fault code (R33). -/
def FaultCode.bits : FaultCode → BitVec 2
  | .none => 0
  | .invalidInstruction => 1
  | .stackOverflow => 2
  | .stackUnderflow => 3

/-- Fault entry (R205): the fault state is written, `pc` keeps the address of the faulting instruction, and control
goes nowhere. There is no return from it but reset (R209). The state left is D4, D5, D21 (log entry 15,
UNVERIFIED, unsafe for claims about a halted state). -/
def State.raiseFault (s : State) (code : FaultCode) (instr : Word) : State :=
  { s with
    halted := true
    faultCode := code
    faultInstr := instr
    stkOvf := decide (code = .stackOverflow)
    stkUnf := decide (code = .stackUnderflow) }

end Sys2Proof.Machine
end

