-- ==== Sys2Proof/Machine/Flags.lean ====
section
/-! DEFINITION. Every computation of the flag register `VF` (spec/10_state.md R34) and the order in which a
flag-writing instruction writes its result and its flag (spec/44_arithmetic_logic.md R171). -/

namespace Sys2Proof.Machine

/-- The value written to `VF` is exactly 0 or 1 (R34). -/
def flagByte (b : Bool) : Byte := if b then 1#8 else 0#8

/-- ADD Vx,Vy: unsigned overflow (R160). -/
def carryFlag (a b : Byte) : Bool := decide (a.toNat + b.toNat > 255)

/-- SUB and SUBN: no borrow occurred in `a - b`, equal operands among it (R162, R163, D17; log entry 14, UNVERIFIED,
unsafe). -/
def noBorrowFlag (a b : Byte) : Bool := decide (a.toNat ≥ b.toNat)

/-- SHR: the evicted low bit (R167). -/
def evictedLow (a : Byte) : Bool := a.getLsbD 0

/-- SHL: the evicted high bit (R168). -/
def evictedHigh (a : Byte) : Bool := a.getLsbD 7

/-- The result is written to `V[x]` first and the flag to `VF` second, so with `x` = 15 the flag wins (R171, D10;
log entry 9, UNVERIFIED, unsafe). -/
def State.writeResultThenFlag (s : State) (x : Nibble) (result : Byte) (flag : Bool) : State :=
  (s.writeV x result).writeV flagReg (flagByte flag)

end Sys2Proof.Machine
end

