-- ==== Sys2Proof/Machine/Operands.lean ====
section
/-! DEFINITION. Every operand form of the instruction set (spec/30_encoding.md R73; spec/43_load.md R150, R152):
registers and immediates are read as they are, so what stands here is the address forms, the key, the BCD digits and
the sprite bits. -/

namespace Sys2Proof.Machine

/-- A 12-bit address zero-extended to 16 bits, as it is written to `pc` or `I` (R73). -/
def addrWord (nnn : Addr) : Word := nnn.setWidth 16

/-- A byte zero-extended to 16 bits (`zext_16`, R121, R146). -/
def byteWord (b : Byte) : Word := b.setWidth 16

/-- The only memory operand form: index register plus a small constant offset (R150, R152). The memory primitives
take it modulo 4096. No access changes `I` (R150, D15; log entry 14, UNVERIFIED, unsafe). -/
def State.effAddr (s : State) (offset : Nat) : Nat := s.index.toNat + offset

/-- The glyph address of a byte, `value * 5` on the whole byte (R146). -/
def glyphAddr (b : Byte) : Word := byteWord b * BitVec.ofNat 16 Config.glyphStride

/-- A key code zero-extended to 8 bits (R135, R151). -/
def keyByte (k : Nibble) : Byte := k.setWidth 8

/-- Whether the pending key is the one a register names: the whole byte is compared (R135, R136,
D13; log entry 13, UNVERIFIED, unsafe). -/
def keyPressed (key : Option Nibble) (b : Byte) : Bool :=
  match key with
  | none => false
  | some k => decide (keyByte k = b)

/-- The decimal digits of a byte by offset: hundreds, tens, ones (R145). -/
def bcdDigit (b : Byte) : Nat → Byte
  | 0 => BitVec.ofNat 8 (b.toNat / 100)
  | 1 => BitVec.ofNat 8 (b.toNat / 10 % 10)
  | _ => BitVec.ofNat 8 (b.toNat % 10)

/-- Register number `i` of a block move, `i` below 16 (R143, R144). -/
def regOfNat (i : Nat) : Nibble := BitVec.ofNat 4 i

/-- Loads the `count` registers `V[0]`, `V[1]`, ... from `I`, `I + 1`, ..., in ascending order (R66, R144);
the writes cannot feed back into the reads (R66). -/
def State.loadRegs (s : State) : Nat → State
  | 0 => s
  | count + 1 => (s.loadRegs count).writeV (regOfNat count) (s.memRead (s.effAddr count))

/-- The frame-buffer column of sprite column `c` when the sprite stands at `px` (R181). -/
def pixelColumn (px : Byte) (c : Nat) : BitVec 6 := BitVec.ofNat 6 ((px.toNat + c) % 64)

/-- The frame-buffer row of sprite row `r` when the sprite stands at `py` (R181). -/
def pixelRow (py : Byte) (r : Nat) : BitVec 5 := BitVec.ofNat 5 ((py.toNat + r) % 32)

/-- Sprite column `c` of a sprite byte is bit `7 - c` (R183, D12; log entry 12, UNVERIFIED, unsafe). -/
def spriteBit (row : Byte) (c : Nat) : Bool := row.getLsbD (7 - c)

end Sys2Proof.Machine
end

