-- ==== Sys2Proof/Machine/ArithLogic.lean ====
section
/-! DEFINITION. The arithmetic and logic family: ADD, SUB, SUBN, AND, OR, XOR, SHR, SHL (spec/44_arithmetic_logic.md).
All operands are read before anything is written (R172). AND, OR and XOR leave `VF` unchanged (D16; log entry 14,
UNVERIFIED, unsafe). -/

namespace Sys2Proof.Machine

/-- ADD Vx,kk (R161): wraps silently, no flag. -/
def execAddImm (x : Nibble) (kk : Byte) (s : State) : Host.Outcome State Fault Refusal :=
  .next (s.timerTick.writeV x (s.timerTick.readV x + kk)).advance

/-- OR Vx,Vy (R165): no flag. -/
def execOrReg (x y : Nibble) (s : State) : Host.Outcome State Fault Refusal :=
  .next (s.timerTick.writeV x (s.timerTick.readV x ||| s.timerTick.readV y)).advance

/-- AND Vx,Vy (R164): no flag. -/
def execAndReg (x y : Nibble) (s : State) : Host.Outcome State Fault Refusal :=
  .next (s.timerTick.writeV x (s.timerTick.readV x &&& s.timerTick.readV y)).advance

/-- XOR Vx,Vy (R166): no flag. -/
def execXorReg (x y : Nibble) (s : State) : Host.Outcome State Fault Refusal :=
  .next (s.timerTick.writeV x (s.timerTick.readV x ^^^ s.timerTick.readV y)).advance

/-- ADD Vx,Vy (R160). -/
def execAddReg (x y : Nibble) (s : State) : Host.Outcome State Fault Refusal :=
  .next (s.timerTick.writeResultThenFlag x (s.timerTick.readV x + s.timerTick.readV y)
    (carryFlag (s.timerTick.readV x) (s.timerTick.readV y))).advance

/-- SUB Vx,Vy (R162). -/
def execSubReg (x y : Nibble) (s : State) : Host.Outcome State Fault Refusal :=
  .next (s.timerTick.writeResultThenFlag x (s.timerTick.readV x - s.timerTick.readV y)
    (noBorrowFlag (s.timerTick.readV x) (s.timerTick.readV y))).advance

/-- SHR Vx (R167): `V[y]` is neither read nor written. -/
def execShr (x _y : Nibble) (s : State) : Host.Outcome State Fault Refusal :=
  .next (s.timerTick.writeResultThenFlag x (s.timerTick.readV x >>> 1) (evictedLow (s.timerTick.readV x))).advance

/-- SUBN Vx,Vy (R163). -/
def execSubnReg (x y : Nibble) (s : State) : Host.Outcome State Fault Refusal :=
  .next (s.timerTick.writeResultThenFlag x (s.timerTick.readV y - s.timerTick.readV x)
    (noBorrowFlag (s.timerTick.readV y) (s.timerTick.readV x))).advance

/-- SHL Vx (R168): `V[y]` is neither read nor written. -/
def execShl (x _y : Nibble) (s : State) : Host.Outcome State Fault Refusal :=
  .next (s.timerTick.writeResultThenFlag x (s.timerTick.readV x <<< 1) (evictedHigh (s.timerTick.readV x))).advance

end Sys2Proof.Machine
end

