-- ==== Sys2Proof/Machine/Clear.lean ====
section
/-! DEFINITION. The clear family: CLS (spec/47_clear.md). -/

namespace Sys2Proof.Machine

/-- CLS (R195): all cells off, no flag. -/
def execCls (s : State) : Host.Outcome State Fault Refusal := .next (s.timerTick.setFb fbClear).advance

end Sys2Proof.Machine
end

