-- ==== Sys2Proof/Machine/ControlFlow.lean ====
section
/-! DEFINITION. The control-flow family: SYS, JP, JP V0, CALL, RET (spec/41_control_flow.md). -/

namespace Sys2Proof.Machine

/-- A call from a state whose timers have ticked (R122): push `pc + 2` unreduced, then jump; on a full stack the
fatal condition StackOverflow, which records the CALL word (R202, R205; log entry 11, DEDUCED, safe). The
unreduced value is D22 (log entry 21, UNVERIFIED). -/
def State.callTo (s : State) (nnn : Addr) : State :=
  match s.push (s.pc + 2#16) with
  | some t => t.commitPc (addrWord nnn)
  | none => s.raiseFault .stackOverflow (encode (.call nnn))

/-- A return from a state whose timers have ticked (R123): pop, then jump there modulo 4096; on an empty stack the
fatal condition StackUnderflow, which records the RET word (R203, R205; log entry 11, DEDUCED, safe). -/
def State.returnFrom (s : State) : State :=
  match s.pop with
  | some (target, t) => t.commitPc target
  | none => s.raiseFault .stackUnderflow (encode .ret)

/-- RET (R123). -/
def execRet (s : State) : Host.Outcome State Fault Refusal := .next s.timerTick.returnFrom

/-- SYS nnn (R124): the timers tick and `pc` advances, nothing else, for every `nnn`. -/
def execSys (_nnn : Addr) (s : State) : Host.Outcome State Fault Refusal := .next s.timerTick.advance

/-- JP nnn (R120). -/
def execJp (nnn : Addr) (s : State) : Host.Outcome State Fault Refusal := .next (s.timerTick.commitPc (addrWord nnn))

/-- CALL nnn (R122). -/
def execCall (nnn : Addr) (s : State) : Host.Outcome State Fault Refusal := .next (s.timerTick.callTo nnn)

/-- JP V0,nnn (R121): always `V[0]`; the sum is not truncated before the commit. -/
def execJpV0 (nnn : Addr) (s : State) : Host.Outcome State Fault Refusal :=
  .next (s.timerTick.commitPc (addrWord nnn + byteWord (s.timerTick.readV 0x0#4)))

end Sys2Proof.Machine
end

