-- ==== Sys2Proof/Machine/Draw.lean ====
section
/-! DEFINITION. The draw family: DRW (spec/45_draw.md). -/

namespace Sys2Proof.Machine

/-- One sprite bit: a set bit toggles its cell and reports a collision, a clear bit leaves its cell alone (R182). -/
def drawBit (px py row : Byte) (r : Nat) (acc : FrameBuffer × Bool) (c : Nat) : FrameBuffer × Bool :=
  if spriteBit row c then
    ((togglePixel acc.1 (pixelColumn px c) (pixelRow py r)).1,
      acc.2 || (togglePixel acc.1 (pixelColumn px c) (pixelRow py r)).2)
  else acc

/-- One sprite row: columns 0 to 7 (R182). -/
def drawRow (px py row : Byte) (r : Nat) (acc : FrameBuffer × Bool) : FrameBuffer × Bool :=
  (List.range 8).foldl (drawBit px py row r) acc

/-- A sprite of `n` rows whose bytes are given by `rowAt` (R182): the new buffer and whether any toggle went on to
off. -/
def drawSprite (px py : Byte) (rowAt : Nat → Byte) (n : Nat) (fb : FrameBuffer) : FrameBuffer × Bool :=
  (List.range n).foldl (fun acc r => drawRow px py (rowAt r) r acc) (fb, false)

/-- The drawing of DRW Vx,Vy,n in a state: both coordinates are read before `VF` is written (R184, D11; log entry 9,
UNVERIFIED, unsafe). -/
def State.drawResult (s : State) (x y n : Nibble) : FrameBuffer × Bool :=
  drawSprite (s.readV x) (s.readV y) (fun r => s.memRead (s.effAddr r)) n.toNat s.fb

/-- DRW Vx,Vy,n (R182): `VF` is rewritten on every execution. -/
def execDrw (x y n : Nibble) (s : State) : Host.Outcome State Fault Refusal :=
  .next ((s.timerTick.setFb (s.timerTick.drawResult x y n).1).writeV flagReg
    (flagByte (s.timerTick.drawResult x y n).2)).advance

end Sys2Proof.Machine
end

