-- ==== Sys2Proof/Machine/Load.lean ====
section
/-! DEFINITION. The load family: LD in all its forms (spec/43_load.md). -/

namespace Sys2Proof.Machine

/-- One attempt of LD Vx,K from a state whose timers have ticked (R151): without a key `next` is `pc` itself, with a
key `V[x]` receives its code and execution moves on. A held key counts (D14; log entry 13, UNVERIFIED, unsafe). -/
def State.waitKey (s : State) (x : Nibble) (key : Option Nibble) : State :=
  match key with
  | none => s.commitPc s.pc
  | some k => (s.writeV x (keyByte k)).advance

/-- LD Vx,kk (R140). -/
def execLdImm (x : Nibble) (kk : Byte) (s : State) : Host.Outcome State Fault Refusal :=
  .next (s.timerTick.writeV x kk).advance

/-- LD Vx,Vy (R141). -/
def execLdReg (x y : Nibble) (s : State) : Host.Outcome State Fault Refusal :=
  .next (s.timerTick.writeV x (s.timerTick.readV y)).advance

/-- LD I,nnn (R142). -/
def execLdI (nnn : Addr) (s : State) : Host.Outcome State Fault Refusal :=
  .next (s.timerTick.setIndex (addrWord nnn)).advance

/-- LD Vx,DT (R147): the value after this step's tick. -/
def execLdVxDT (x : Nibble) (s : State) : Host.Outcome State Fault Refusal :=
  .next (s.timerTick.writeV x s.timerTick.dt).advance

/-- LD Vx,K (R151). -/
def execLdVxK (x : Nibble) (s : State) : Host.Outcome State Fault Refusal := .next (s.timerTick.waitKey x s.key)

/-- LD DT,Vx (R148): written after this step's tick. -/
def execLdDTVx (x : Nibble) (s : State) : Host.Outcome State Fault Refusal :=
  .next (s.timerTick.setDT (s.timerTick.readV x)).advance

/-- LD ST,Vx (R149): written after this step's tick. -/
def execLdSTVx (x : Nibble) (s : State) : Host.Outcome State Fault Refusal :=
  .next (s.timerTick.setST (s.timerTick.readV x)).advance

/-- LD F,Vx (R146). -/
def execLdFVx (x : Nibble) (s : State) : Host.Outcome State Fault Refusal :=
  .next (s.timerTick.setIndex (glyphAddr (s.timerTick.readV x))).advance

/-- LD B,Vx (R145). -/
def execLdBVx (x : Nibble) (s : State) : Host.Outcome State Fault Refusal :=
  .next (s.timerTick.memWriteBlock (s.effAddr 0) (bcdDigit (s.timerTick.readV x)) 3).advance

/-- LD [I],Vx (R143): `V[0]` to `V[x]`. -/
def execLdMemVx (x : Nibble) (s : State) : Host.Outcome State Fault Refusal :=
  .next (s.timerTick.memWriteBlock (s.effAddr 0) (fun i => s.readV (regOfNat i)) (x.toNat + 1)).advance

/-- LD Vx,[I] (R144): `V[0]` to `V[x]`. -/
def execLdVxMem (x : Nibble) (s : State) : Host.Outcome State Fault Refusal :=
  .next (s.timerTick.loadRegs (x.toNat + 1)).advance

end Sys2Proof.Machine
end

