-- ==== Sys2Proof/Machine/Random.lean ====
section
/-! DEFINITION. The random family: RND (spec/46_random.md). -/

namespace Sys2Proof.Machine

/-- RND Vx,kk (R190): the random byte of this step, masked. -/
def execRnd (x : Nibble) (kk : Byte) (s : State) : Host.Outcome State Fault Refusal :=
  .next (s.timerTick.writeV x (s.rnd &&& kk)).advance

end Sys2Proof.Machine
end

