-- ==== Sys2Proof/Machine/Skip.lean ====
section
/-! DEFINITION. The conditional-skip family: SE, SNE, SKP, SKNP (spec/42_conditional_skip.md). -/

namespace Sys2Proof.Machine

/-- SE Vx,kk (R131). -/
def execSeImm (x : Nibble) (kk : Byte) (s : State) : Host.Outcome State Fault Refusal :=
  .next (s.timerTick.skipIf (decide (s.timerTick.readV x = kk)))

/-- SNE Vx,kk (R132). -/
def execSneImm (x : Nibble) (kk : Byte) (s : State) : Host.Outcome State Fault Refusal :=
  .next (s.timerTick.skipIf (decide (s.timerTick.readV x ≠ kk)))

/-- SE Vx,Vy (R133). -/
def execSeReg (x y : Nibble) (s : State) : Host.Outcome State Fault Refusal :=
  .next (s.timerTick.skipIf (decide (s.timerTick.readV x = s.timerTick.readV y)))

/-- SNE Vx,Vy (R134). -/
def execSneReg (x y : Nibble) (s : State) : Host.Outcome State Fault Refusal :=
  .next (s.timerTick.skipIf (decide (s.timerTick.readV x ≠ s.timerTick.readV y)))

/-- SKP Vx (R135). -/
def execSkp (x : Nibble) (s : State) : Host.Outcome State Fault Refusal :=
  .next (s.timerTick.skipIf (keyPressed s.key (s.timerTick.readV x)))

/-- SKNP Vx (R136). -/
def execSknp (x : Nibble) (s : State) : Host.Outcome State Fault Refusal :=
  .next (s.timerTick.skipIf (!keyPressed s.key (s.timerTick.readV x)))

end Sys2Proof.Machine
end

