-- ==== Sys2Proof/Machine/Step.lean ====
section
/-! DEFINITION. One step of the machine (spec/40_cycle.md R100): fetch, decode, execute. -/

namespace Sys2Proof.Machine

/-- One step (R100 to R102, R108). A halted state has no successor (R208; log entry 5, DEDUCED, safe); an invalid word raises
InvalidInstruction before `Execute`, so no timer ticks (R102, R201). -/
def step (s : State) : Host.Outcome State Fault Refusal :=
  if s.halted then .fault (.halted s.faultCode s.faultInstr)
  else
    match decode s.fetch with
    | .invalid raw => .next (s.raiseFault .invalidInstruction raw).endStep
    | .ok i =>
      match exec i s with
      | .next t => .next t.endStep
      | .fault f => .fault f
      | .refused r => .refused r

/-- `s` with the table word `w` of `nbits` bits stored, high byte first, where `step` fetches its next instruction
(log entry 7, DESIGN CHOICE of form, safe). -/
def State.withFetchWord (s : State) (nbits w : Nat) : State := s.placeAtPc (BitVec.ofNat 16 (w % 2 ^ nbits))

end Sys2Proof.Machine
end

