-- ==== Sys2Proof/Machine/Ports.lean ====
section
/-! DEFINITION. The block's outside (spec/00_scope.md R7 to R12; spec/70_reset_and_hazards.md R230 to R233): reset,
the program-load port of the boot phase, the clock edge, the frame-buffer read port and the status outputs. -/

namespace Sys2Proof.Machine

/-- The input signals at one clock edge (R7 to R10). -/
structure EdgeInput where
  rst : Bool
  stepEn : Bool
  ldEn : Bool
  ldData : Byte
  keyValid : Bool
  keyCode : Nibble
  rnd : Byte
  deriving DecidableEq, Repr

/-- The pending key of an edge (R8): `key_code` means nothing when `key_valid` is 0 (U14). -/
def pendingKey (e : EdgeInput) : Option Nibble := if e.keyValid then some e.keyCode else none

/-- A `MEM_INIT` image, the parameter of the block that a model takes as an argument (R6, D3), as a memory. -/
def Memory.ofImage (image : Vector Byte 4096) : Memory :=
  (State.reset.memWriteBlock 0 (fun a => image[a]?.getD 0) 4096).mem

/-- The reset state of a block with a given `MEM_INIT` image (R40, R230, R232); `State.reset` is that of the default
image, all zero. -/
def State.resetWith (image : Vector Byte 4096) : State := { State.reset with mem := Memory.ofImage image }

/-- Reset (R41, R230): every field of R40 whatever the state before, the memory to `MEM_INIT`; the model's own fields
stay, so that no free value is drawn twice (log entry 19, DESIGN CHOICE, safe). -/
def State.applyReset (image : Vector Byte 4096) (s : State) : State :=
  { State.resetWith image with inputs := s.inputs, steps := s.steps }

/-- One edge of the load port in the boot phase (R233); the 12-bit pointer wraps modulo 4096
(D25; log entry 22, UNVERIFIED, safe). -/
def State.loadByte (s : State) (b : Byte) : State := { s.memWrite s.ldPtr.toNat b with ldPtr := s.ldPtr + 1#12 }

/-- An edge with `step_en` = 1: a step with the presented sample, or no change when no step can be taken (R208). -/
def State.stepEdge (s : State) (i : StepInput) : State :=
  match step (s.present i) with
  | .next t => t
  | .fault _ => s
  | .refused _ => s

/-- One rising clock edge of a block with a given `MEM_INIT` image (R7, R108, R231), which a reset alone looks at. Reset
goes before everything, a step before the load port (log entry 6, DESIGN CHOICE, unsafe), and the load port is ignored
outside the boot phase. -/
def clockEdge (image : Vector Byte 4096) (e : EdgeInput) (s : State) : State :=
  if e.rst then s.applyReset image
  else if e.stepEn then s.stepEdge { key := pendingKey e, rnd := e.rnd }
  else if e.ldEn && s.boot then s.loadByte e.ldData
  else s

/-- The program load (R233): the bytes in order, the later byte winning where addresses wrap. -/
def State.loadRom (s : State) (rom : List Byte) : State := rom.foldl State.loadByte s

/-- The launch state (R232): `Load(MEM_INIT, ROM)`, everything else as after reset. -/
def State.launch (image : Vector Byte 4096) (rom : List Byte) : State := (State.resetWith image).loadRom rom

/-- `fb_pixel` (R11): combinational and read-only. -/
def fbPixel (s : State) (fbX : BitVec 6) (fbY : BitVec 5) : Bool := s.pixel fbX fbY

/-- The status outputs (R12). -/
structure Status where
  halted : Bool
  faultCode : BitVec 2
  faultInstr : Word
  stkOvf : Bool
  stkUnf : Bool
  deriving DecidableEq, Repr

/-- The status outputs are driven from the fault state (R12, R33). -/
def statusOf (s : State) : Status where
  halted := s.halted
  faultCode := s.faultCode.bits
  faultInstr := s.faultInstr
  stkOvf := s.stkOvf
  stkUnf := s.stkUnf

end Sys2Proof.Machine
end

