-- ==== Sys2Proof/Safety.lean ====
section
/-! DEFINITION. What claims are stated in: a safe run (spec/60_exceptions.md R222), the end of a program
(spec/70_reset_and_hazards.md R237), the invariant of reachable states (spec/10_state.md R39), and the words for what
a step changes and leaves unchanged. -/

namespace Sys2Proof.Machine

/-! ### Runs -/

/-- A run of `n` steps from `s` is safe when it answers a state and that state is not halted: a halted state is a
fault outcome, never a final state (R222). -/
def SafeRun (n : Nat) (s : State) : Prop := ∃ t, Sys2Proof.core.run n s = .next t ∧ t.halted = false

/-- The program has ended at `a` (R237): `pc` is `a`, the word there is `JP a`, and the block is not halted. -/
def State.EndedAt (s : State) (a : Addr) : Prop :=
  s.pc = addrWord a ∧ s.fetch = encode (.jp a) ∧ s.halted = false

/-! ### The invariant (R39) -/

/-- What holds in every state reachable from reset, between steps (R39, R33), with the memory in canonical form. -/
structure State.Inv (s : State) : Prop where
  pcInMemory : s.pc.toNat < 4096
  indexInMemory : s.index.toNat < 4096
  haltedIffFault : s.halted = true ↔ s.faultCode ≠ .none
  overflowFlag : s.stkOvf = true ↔ s.faultCode = .stackOverflow
  underflowFlag : s.stkUnf = true ↔ s.faultCode = .stackUnderflow
  bootNotHalted : s.boot = true → s.halted = false
  liveEntries : ∀ j : Fin 12, j.val < s.sp.val → 2 ≤ s.stack[j].toNat ∧ s.stack[j].toNat ≤ 4097
  memoryCanonical : Memory.wf s.mem = true

/-! ### What a step changes -/

/-- The parts of the state a claim names. -/
inductive Part where
  | registers
  | index
  | pc
  | stack
  | delayTimer
  | soundTimer
  | frameBuffer
  | memory
  | faultState
  | loadPort
  | environment
  deriving DecidableEq, Repr

/-- One part of the state reads the same in `t` as in `s`: each register, each stack entry, each cell of the frame
buffer and each byte of memory through the operation that reads it. -/
def Unchanged (s t : State) : Part → Prop
  | .registers => ∀ r, t.readV r = s.readV r
  | .index => t.index = s.index
  | .pc => t.pc = s.pc
  | .stack => t.sp = s.sp ∧ ∀ j : Fin 12, t.stack[j] = s.stack[j]
  | .delayTimer => t.dt = s.dt
  | .soundTimer => t.st = s.st
  | .frameBuffer => ∀ cx cy, t.pixel cx cy = s.pixel cx cy
  | .memory => ∀ a, t.memRead a = s.memRead a
  | .faultState => t.halted = s.halted ∧ t.faultCode = s.faultCode ∧ t.faultInstr = s.faultInstr ∧
      t.stkOvf = s.stkOvf ∧ t.stkUnf = s.stkUnf
  | .loadPort => t.boot = s.boot ∧ t.ldPtr = s.ldPtr
  | .environment => t.inputs = s.inputs ∧ t.steps = s.steps

/-- Every part but those listed is unchanged. -/
def OnlyChanges (parts : List Part) (s t : State) : Prop := ∀ p, p ∉ parts → Unchanged s t p

/-- Both timers have fallen by one, not below zero (R103). -/
def TimersTicked (s t : State) : Prop := t.dt.toNat = s.dt.toNat - 1 ∧ t.st.toNat = s.st.toNat - 1

/-- `pc` is `next` modulo 4096 (R105). -/
def PcBecomes (next : Nat) (t : State) : Prop := t.pc.toNat = next % 4096

/-- Executing `i` in `s` completes: it answers a next state `t` in which both timers have ticked, `pc` is `next`
modulo 4096, nothing has changed but `pc`, the timers and the parts listed, and `effect t` holds. -/
def RunsAs (i : Instr) (s : State) (changed : List Part) (next : Nat) (effect : State → Prop) : Prop :=
  ∃ t, exec i s = .next t ∧ TimersTicked s t ∧ PcBecomes next t ∧
    OnlyChanges (.pc :: .delayTimer :: .soundTimer :: changed) s t ∧ effect t

/-- The fault state of fault entry (R205). -/
def FaultEntered (code : FaultCode) (instr : Word) (t : State) : Prop :=
  t.halted = true ∧ t.faultCode = code ∧ t.faultInstr = instr ∧
    (t.stkOvf = true ↔ code = .stackOverflow) ∧ (t.stkUnf = true ↔ code = .stackUnderflow)

/-- The register `r` is one the instruction may write (R21, R34). -/
def writesRegister : Instr → Nibble → Bool
  | .cls, _ => false
  | .ret, _ => false
  | .sys _, _ => false
  | .jp _, _ => false
  | .call _, _ => false
  | .seImm _ _, _ => false
  | .sneImm _ _, _ => false
  | .seReg _ _, _ => false
  | .ldImm x _, r => decide (r = x)
  | .addImm x _, r => decide (r = x)
  | .ldReg x _, r => decide (r = x)
  | .orReg x _, r => decide (r = x)
  | .andReg x _, r => decide (r = x)
  | .xorReg x _, r => decide (r = x)
  | .addReg x _, r => decide (r = x ∨ r = flagReg)
  | .subReg x _, r => decide (r = x ∨ r = flagReg)
  | .shr x _, r => decide (r = x ∨ r = flagReg)
  | .subnReg x _, r => decide (r = x ∨ r = flagReg)
  | .shl x _, r => decide (r = x ∨ r = flagReg)
  | .sneReg _ _, _ => false
  | .ldI _, _ => false
  | .jpV0 _, _ => false
  | .rnd x _, r => decide (r = x)
  | .drw _ _ _, r => decide (r = flagReg)
  | .skp _, _ => false
  | .sknp _, _ => false
  | .ldVxDT x, r => decide (r = x)
  | .ldVxK x, r => decide (r = x)
  | .ldDTVx _, _ => false
  | .ldSTVx _, _ => false
  | .ldFVx _, _ => false
  | .ldBVx _, _ => false
  | .ldMemVx _, _ => false
  | .ldVxMem x, r => decide (r.toNat ≤ x.toNat)

/-- The parts beside `pc` and the timers that the instruction may change (R21, R22, R25, R31, R59, R204). -/
def changedParts : Instr → List Part
  | .cls => [.frameBuffer]
  | .ret => [.stack, .faultState]
  | .sys _ => []
  | .jp _ => []
  | .call _ => [.stack, .faultState]
  | .seImm _ _ => []
  | .sneImm _ _ => []
  | .seReg _ _ => []
  | .ldImm _ _ => [.registers]
  | .addImm _ _ => [.registers]
  | .ldReg _ _ => [.registers]
  | .orReg _ _ => [.registers]
  | .andReg _ _ => [.registers]
  | .xorReg _ _ => [.registers]
  | .addReg _ _ => [.registers]
  | .subReg _ _ => [.registers]
  | .shr _ _ => [.registers]
  | .subnReg _ _ => [.registers]
  | .shl _ _ => [.registers]
  | .sneReg _ _ => []
  | .ldI _ => [.index]
  | .jpV0 _ => []
  | .rnd _ _ => [.registers]
  | .drw _ _ _ => [.registers, .frameBuffer]
  | .skp _ => []
  | .sknp _ => []
  | .ldVxDT _ => [.registers]
  | .ldVxK _ => [.registers]
  | .ldDTVx _ => []
  | .ldSTVx _ => []
  | .ldFVx _ => [.index]
  | .ldBVx _ => [.memory]
  | .ldMemVx _ => [.memory]
  | .ldVxMem _ => [.registers]

/-- The instruction reads the pending key (R107). -/
def readsKey (i : Instr) : Prop := (∃ x, i = .skp x) ∨ (∃ x, i = .sknp x) ∨ (∃ x, i = .ldVxK x)

/-- The instruction reads the random byte (R107). -/
def readsRnd (i : Instr) : Prop := ∃ x kk, i = .rnd x kk

/-- Some set bit of the sprite of DRW Vx,Vy,n falls on the cell in column `cx` and row `cy` (R181 to R183). -/
def SpriteCovers (s : State) (x y n : Nibble) (cx : BitVec 6) (cy : BitVec 5) : Prop :=
  ∃ r c, r < n.toNat ∧ c < 8 ∧ cx.toNat = ((s.readV x).toNat + c) % 64 ∧ cy.toNat = ((s.readV y).toNat + r) % 32 ∧
    (s.memRead (s.index.toNat + r)).getLsbD (7 - c) = true

/-- Pops `n` entries one after another; `none` as soon as one underflows (R27). -/
def popMany : Nat → State → Option (List Word × State)
  | 0, s => some ([], s)
  | n + 1, s =>
    match s.pop with
    | none => none
    | some (w, t) =>
      match popMany n t with
      | none => none
      | some (ws, u) => some (w :: ws, u)

end Sys2Proof.Machine
end

