-- ==== Sys2Proof/Certificates/Slice0/Obligations.lean ====
section
/-! DEFINITION. The statements for the provers, from the spec's numbered rules. Where a clause rests on a choice the
spec marks as its own (a decision D<n> of spec/92_eei_decisions.md) or on the model's own choice (a log entry), the
docstring says so. Every clause that gives an instruction's word rests on the opcode numbers of R87, which are the
spec's decision D6 (log entry 4). -/

open Sys2Proof Sys2Proof.Machine

/-! ### Encoding -/

/-- Decoding the word of a well-formed instruction gives the instruction back, for both values of `SUBN_PRESENT`
(R84, R87; the opcode numbers are the spec's decision D6). -/
def Obligations.EncodedInstructionDecodesBack : Prop :=
  ∀ (subn : Bool) (i : Instr), i.wfWith subn = true → decodeWith subn (encode i) = .ok i

/-- A word that decodes to an instruction is that instruction's word, and the instruction is well formed, for both
values of `SUBN_PRESENT` (R84, R87; D6). -/
def Obligations.DecodedWordEncodesBack : Prop :=
  ∀ (subn : Bool) (w : Word) (i : Instr), decodeWith subn w = .ok i → i.wfWith subn = true ∧ encode i = w

/-- The invalid words are exactly those of R81's table, and the signal carries the raw word (R81 is marked as derived,
from rules that rest on D6 to D9). -/
def Obligations.InvalidWordsAreExactlyTheListedOnes : Prop :=
  ∀ w : Word,
    (decode w = .invalid w ↔
      (w.toNat / 4096 = 5 ∧ w.toNat % 16 ≠ 0) ∨
      (w.toNat / 4096 = 8 ∧ w.toNat % 16 ∈ [0x8, 0x9, 0xA, 0xB, 0xC, 0xD, 0xF]) ∨
      (w.toNat / 4096 = 9 ∧ w.toNat % 16 ≠ 0) ∨
      (w.toNat / 4096 = 0xE ∧ w.toNat % 256 ∉ [0x9E, 0xA1]) ∨
      (w.toNat / 4096 = 0xF ∧ w.toNat % 256 ∉ [0x07, 0x0A, 0x15, 0x18, 0x29, 0x33, 0x55, 0x65])) ∧
    (∀ raw, decode w = .invalid raw → raw = w)

/-- The two worked decodings of R88. -/
def Obligations.WorkedExamplesDecode : Prop :=
  decode 0x3A12#16 = .ok (.seImm 0xA#4 0x12#8) ∧ decode 0xD012#16 = .ok (.drw 0x0#4 0x1#4 0x2#4)

/-- A word is instruction number k exactly when its masked bits are the row's match value, rows CLS and RET going
before SYS (R87; D6 to D9): the decoded instruction's row matches the word, and a row that matches the word is the
row of the decoded instruction. -/
def Obligations.WordMatchesItsTableRow : Prop :=
  (∀ (w : Word) (i : Instr), decode w = .ok i → w &&& tableMask i = tableMatch i) ∧
  (∀ (w : Word) (i : Instr), w &&& tableMask i = tableMatch i →
    (tableMatch i = 0x0000#16 → w ≠ 0x00E0#16 ∧ w ≠ 0x00EE#16) →
    ∃ j, decode w = .ok j ∧ tableMask j = tableMask i ∧ tableMatch j = tableMatch i)

/-- An instruction is read from two bytes, the high byte first, and the bytes after it are left (R70, R53). -/
def Obligations.TwoBytesDecodeBigEndian : Prop :=
  (∀ (i : Instr) (rest : List Byte), i.wf = true → decodeBytes (encodeBytes i ++ rest) = .ok (i, rest)) ∧
  (∀ (hi lo : Byte) (rest : List Byte) (w : Word), w.toNat = hi.toNat * 256 + lo.toNat →
    decode w = .invalid w → decodeBytes (hi :: lo :: rest) = .error (.invalidInstruction w))

/-! ### Memory and fetch -/

/-- Every byte address wraps modulo 4096, a written byte reads back, and a write changes no other byte (R51, R52). -/
def Obligations.MemoryReadsWhatWasWritten : Prop :=
  ∀ (s : State) (addr : Nat) (b : Byte),
    s.memRead addr = Memory.lookup s.mem (addr % 4096) ∧
    (∀ a, (s.memWrite addr b).memRead a = if a % 4096 = addr % 4096 then b else s.memRead a)

/-- Two memories in canonical form that read the same at every address are equal data (the model's form, log entry
10, over R32). -/
def Obligations.CanonicalMemoriesWithEqualReadsAreEqual : Prop :=
  ∀ m m' : Memory, Memory.wf m = true → Memory.wf m' = true →
    (∀ a, a < 4096 → Memory.lookup m a = Memory.lookup m' a) → m = m'

/-- The two-byte read is big-endian and each of its byte addresses wraps on its own; fetch is that read at `pc`
(R53). -/
def Obligations.FetchIsBigEndianAndWraps : Prop :=
  ∀ (s : State) (addr : Nat),
    (s.memReadWord addr).toNat =
      (Memory.lookup s.mem (addr % 4096)).toNat * 256 + (Memory.lookup s.mem ((addr + 1) % 4096)).toNat ∧
    s.fetch = s.memReadWord s.pc.toNat

/-- Bytes stored by LD [I],Vx are the instruction the next fetch reads where `pc` then points at them (R64, marked as
derived). -/
def Obligations.StoredBytesAreFetchedNext : Prop :=
  ∀ (x : Nibble) (s t : State) (i : Nat), i < x.toNat → exec (.ldMemVx x) s = .next t →
    t.pc.toNat % 4096 = s.effAddr i % 4096 →
    t.fetch.toNat = (s.readV (regOfNat i)).toNat * 256 + (s.readV (regOfNat (i + 1))).toNat

/-! ### The step -/

/-- A step whose bytes at `pc` decode to `i` executes `i`, and around it only uses up the sample, counts the step (the
model's own fields, log entry 1) and ends the boot phase (R100, R101, R231, D25; where `i` faults, log entry 17); and a
clock edge that asks a block that is not halted for a step is that step of the state in which the edge's pending key and
random byte are presented, no key where `key_valid` is 0 and `key_code` where it is 1 (R7, R8, R9, R108; D1, D24,
D26). That an edge in the boot phase with `ld_en` = 1 as well takes the step and does not load the byte is the model's
choice, log entry 6. -/
def Obligations.StepRunsTheDecodedInstruction : Prop :=
  (∀ (s : State) (w : Word) (i : Instr), s.halted = false →
    w.toNat = (s.memRead s.pc.toNat).toNat * 256 + (s.memRead (s.pc.toNat + 1)).toNat → decode w = .ok i →
    ∃ t, exec i s = .next t ∧
      step s = .next { t with inputs := s.inputs.tail, steps := s.steps + 1, boot := false }) ∧
  (∀ (image : Vector Byte 4096) (e : EdgeInput) (s : State), s.halted = false → e.rst = false → e.stepEn = true →
    ∃ k : Option Nibble, (e.keyValid = false → k = none) ∧ (e.keyValid = true → k = some e.keyCode) ∧
      (s.present { key := k, rnd := e.rnd }).key = k ∧ (s.present { key := k, rnd := e.rnd }).rnd = e.rnd ∧
      step (s.present { key := k, rnd := e.rnd }) = .next (clockEdge image e s))

/-- A step on an invalid word raises InvalidInstruction, code 1 on the status outputs, with that word, ticks no timer and
writes no `pc` (R12, R33, R102, R201, R205; D4, D5, D21; log entry 15); beside the fault state only the boot phase ends,
in this faulting step too (R231, D25; log entry 17), and the model's own fields go on (log entry 1). -/
def Obligations.InvalidWordHaltsWithoutTick : Prop :=
  ∀ (s : State) (raw : Word), s.halted = false → decode s.fetch = .invalid raw →
    ∃ t, step s = .next t ∧ FaultEntered .invalidInstruction s.fetch t ∧
      statusOf t = { halted := true, faultCode := 1#2, faultInstr := s.fetch, stkOvf := false, stkUnf := false } ∧
      t.boot = false ∧ t.ldPtr = s.ldPtr ∧ OnlyChanges [.faultState, .loadPort, .environment] s t

/-- A halted block takes no step: `step` answers the fault that surfaces the fault state (the model's form, log entry
5), and a clock edge without reset changes nothing where a step is asked for or the boot phase is over (R208, D20). In a
halted state of the boot phase, which no run reaches, that `ld_en` = 1 beside `step_en` = 1 loads no byte is log entry 6. -/
def Obligations.HaltedBlockTakesNoStep : Prop :=
  ∀ (image : Vector Byte 4096) (s : State) (e : EdgeInput), s.halted = true →
    step s = .fault (.halted s.faultCode s.faultInstr) ∧
    (e.rst = false → e.stepEn = true ∨ s.boot = false → clockEdge image e s = s)

/-- Both timers fall by one, not below zero, in every executed instruction, the faulting CALL and RET among them; only
LD DT,Vx and LD ST,Vx then write one (R103, R148, R149, R214). -/
def Obligations.EveryInstructionTicksBothTimers : Prop :=
  ∀ (i : Instr) (s : State), ∃ t, exec i s = .next t ∧
    ((∀ x, i ≠ .ldDTVx x) → t.dt.toNat = s.dt.toNat - 1) ∧
    ((∀ x, i ≠ .ldSTVx x) → t.st.toNat = s.st.toNat - 1)

/-- An instruction changes only the registers R21 lists for it and, beside `pc` and the timers, only the parts of the
state R21, R22, R25, R31, R59 and R204 name for it (tables marked as derived). -/
def Obligations.InstructionsChangeOnlyTheirParts : Prop :=
  ∀ (i : Instr) (s t : State), exec i s = .next t →
    OnlyChanges (.pc :: .delayTimer :: .soundTimer :: changedParts i) s t ∧
    (∀ r, writesRegister i r = false → t.readV r = s.readV r)

/-- Only CALL on a full stack and RET on an empty one fault while executing (R204, R207). -/
def Obligations.OnlyCallAndRetFault : Prop :=
  ∀ (i : Instr) (s t : State), exec i s = .next t → s.halted = false → t.halted = true →
    ((∃ nnn, i = .call nnn) ∧ s.sp.val = 12 ∧ t.faultCode = .stackOverflow) ∨
    (i = .ret ∧ s.sp.val = 0 ∧ t.faultCode = .stackUnderflow)

/-- The pending key is read only by SKP, SKNP and LD Vx,K and the random byte only by RND: with other inputs, an
instruction does the same to everything but the inputs, unless it reads the one that differs (R107, R9). -/
def Obligations.InputsAreReadOnlyByTheirInstructions : Prop :=
  ∀ (i : Instr) (s : State) (inputs' : List StepInput) (steps' : Nat),
    (readsKey i → { s with inputs := inputs', steps := steps' }.key = s.key) →
    (readsRnd i → { s with inputs := inputs', steps := steps' }.rnd = s.rnd) →
    ∃ t, exec i s = .next t ∧
      exec i { s with inputs := inputs', steps := steps' } =
        .next { t with inputs := inputs', steps := steps' }

/-- No instruction reads the sound timer: with another value of it, an instruction does the same to everything else
(R29). -/
def Obligations.SoundTimerIsNeverRead : Prop :=
  ∀ (i : Instr) (s : State) (b : Byte), ∃ t b',
    exec i s = .next t ∧ exec i { s with st := b } = .next { t with st := b' }

/-! ### Control flow -/

/-- JP nnn (R120). -/
def Obligations.JumpGoesToItsTarget : Prop :=
  ∀ (nnn : Addr) (s : State), decode (BitVec.ofNat 16 (0x1000 + nnn.toNat)) = .ok (.jp nnn) ∧
    RunsAs (.jp nnn) s [] nnn.toNat (fun _ => True)

/-- JP V0,nnn: always `V[0]`, the sum reduced modulo 4096 (R121). -/
def Obligations.IndexedJumpAddsV0 : Prop :=
  ∀ (nnn : Addr) (s : State), decode (BitVec.ofNat 16 (0xB000 + nnn.toNat)) = .ok (.jpV0 nnn) ∧
    RunsAs (.jpV0 nnn) s [] (nnn.toNat + (s.readV 0x0#4).toNat) (fun _ => True)

/-- CALL nnn with a free stack entry pushes the unreduced `pc + 2` and jumps (R122, R26; the form of the pushed value
is the spec's decision D22). -/
def Obligations.CallPushesReturnAddressAndJumps : Prop :=
  ∀ (nnn : Addr) (s : State), s.sp.val < 12 →
    RunsAs (.call nnn) s [.stack] nnn.toNat (fun t =>
      t.sp.val = s.sp.val + 1 ∧
      (∀ j : Fin 12, t.stack[j].toNat = if j.val = s.sp.val then (s.pc.toNat + 2) % 65536 else s.stack[j].toNat))

/-- CALL nnn on a full stack halts with StackOverflow, code 2 on the status outputs, and the CALL word; the timers have
ticked and nothing else has changed, `pc` among it (R12, R33, R122, R202, R205; D4, D5; log entries 11 and 15). -/
def Obligations.CallOnFullStackHalts : Prop :=
  ∀ (nnn : Addr) (s : State), s.sp.val = 12 →
    ∃ t, exec (.call nnn) s = .next t ∧ FaultEntered .stackOverflow (BitVec.ofNat 16 (0x2000 + nnn.toNat)) t ∧
      statusOf t = { halted := true, faultCode := 2#2, faultInstr := BitVec.ofNat 16 (0x2000 + nnn.toNat),
                     stkOvf := true, stkUnf := false } ∧
      TimersTicked s t ∧ OnlyChanges [.delayTimer, .soundTimer, .faultState] s t

/-- RET with a live entry pops it and goes there modulo 4096; the entry's bits stay (R123, R27; D22). -/
def Obligations.ReturnPopsItsTarget : Prop :=
  ∀ (s : State) (j : Fin 12), s.sp.val = j.val + 1 →
    RunsAs .ret s [.stack] s.stack[j].toNat (fun t =>
      t.sp.val = j.val ∧ ∀ k : Fin 12, t.stack[k] = s.stack[k])

/-- RET on an empty stack halts with StackUnderflow, code 3 on the status outputs, and the RET word; the timers have
ticked and nothing else has changed, `pc` among it (R12, R33, R123, R203, R205; D4, D5; log entries 11 and 15). -/
def Obligations.ReturnOnEmptyStackHalts : Prop :=
  ∀ s : State, s.sp.val = 0 →
    ∃ t, exec .ret s = .next t ∧ FaultEntered .stackUnderflow 0x00EE#16 t ∧
      statusOf t = { halted := true, faultCode := 3#2, faultInstr := 0x00EE#16, stkOvf := false, stkUnf := true } ∧
      TimersTicked s t ∧ OnlyChanges [.delayTimer, .soundTimer, .faultState] s t

/-- SYS nnn does nothing but advance, for every `nnn` of its encoding (R124). -/
def Obligations.SysOnlyAdvances : Prop :=
  ∀ (nnn : Addr) (s : State),
    (nnn ≠ 0x0E0#12 → nnn ≠ 0x0EE#12 → decode (BitVec.ofNat 16 nnn.toNat) = .ok (.sys nnn)) ∧
    RunsAs (.sys nnn) s [] (s.pc.toNat + 2) (fun _ => True)

/-- `Push`: on a full stack it fails, else it stores the value in the next free slot (R26). -/
def Obligations.PushStoresOrOverflows : Prop :=
  ∀ (s : State) (w : Word),
    (s.sp.val = 12 → s.push w = none) ∧
    (s.sp.val ≠ 12 → ∃ t, s.push w = some t ∧ t.sp.val = s.sp.val + 1 ∧
      (∀ j : Fin 12, t.stack[j] = if j.val = s.sp.val then w else s.stack[j]) ∧
      ∀ p, p ≠ Part.stack → Unchanged s t p)

/-- `Pop`: on an empty stack it fails, else it answers the entry below the pointer and leaves its bits (R27). -/
def Obligations.PopAnswersOrUnderflows : Prop :=
  ∀ s : State,
    (s.sp.val = 0 → s.pop = none) ∧
    (∀ j : Fin 12, s.sp.val = j.val + 1 → ∃ t, s.pop = some (s.stack[j], t) ∧ t.sp.val = j.val ∧
      (∀ k : Fin 12, t.stack[k] = s.stack[k]) ∧ ∀ p, p ≠ Part.stack → Unchanged s t p)

/-- Pushed values come back in reverse order, a thirteenth push onto an empty stack fails and so does a thirteenth pop
(R25, whose pointer convention is D22). -/
def Obligations.StackIsLastInFirstOut : Prop :=
  ∀ (s : State) (ws : List Word), s.sp.val + ws.length ≤ 12 →
    ∃ t u, ws.foldlM State.push s = some t ∧ popMany ws.length t = some (ws.reverse, u) ∧ u.sp = s.sp ∧
      (s.sp.val + ws.length = 12 → ∀ w, t.push w = none) ∧ (s.sp.val = 0 → u.pop = none)

/-! ### Conditional skips -/

/-- SE Vx,kk skips when the register equals the immediate, SNE Vx,kk when it differs (R131, R132). -/
def Obligations.ImmediateSkipsCompareOneRegister : Prop :=
  ∀ (x : Nibble) (kk : Byte) (s : State),
    decode (BitVec.ofNat 16 (0x3000 + x.toNat * 256 + kk.toNat)) = .ok (.seImm x kk) ∧
    RunsAs (.seImm x kk) s [] (if s.readV x = kk then s.pc.toNat + 4 else s.pc.toNat + 2) (fun _ => True) ∧
    decode (BitVec.ofNat 16 (0x4000 + x.toNat * 256 + kk.toNat)) = .ok (.sneImm x kk) ∧
    RunsAs (.sneImm x kk) s [] (if s.readV x = kk then s.pc.toNat + 2 else s.pc.toNat + 4) (fun _ => True)

/-- SE Vx,Vy skips when two registers are equal, SNE Vx,Vy when they differ; with another low nibble the words are
invalid (R133, R134). -/
def Obligations.RegisterSkipsCompareTwoRegisters : Prop :=
  ∀ (x y : Nibble) (s : State),
    decode (BitVec.ofNat 16 (0x5000 + x.toNat * 256 + y.toNat * 16)) = .ok (.seReg x y) ∧
    RunsAs (.seReg x y) s [] (if s.readV x = s.readV y then s.pc.toNat + 4 else s.pc.toNat + 2) (fun _ => True) ∧
    decode (BitVec.ofNat 16 (0x9000 + x.toNat * 256 + y.toNat * 16)) = .ok (.sneReg x y) ∧
    RunsAs (.sneReg x y) s [] (if s.readV x = s.readV y then s.pc.toNat + 2 else s.pc.toNat + 4) (fun _ => True) ∧
    (∀ n, 0 < n → n < 16 →
      (∃ raw, decode (BitVec.ofNat 16 (0x5000 + x.toNat * 256 + y.toNat * 16 + n)) = .invalid raw) ∧
      (∃ raw, decode (BitVec.ofNat 16 (0x9000 + x.toNat * 256 + y.toNat * 16 + n)) = .invalid raw))

/-- SKP Vx and SKNP Vx: the whole byte is compared with the pending key; without a key SKP does not skip and SKNP does
(R135, R136; the comparison of the whole byte is the spec's decision D13). -/
def Obligations.KeySkipsCompareTheWholeByte : Prop :=
  ∀ (x : Nibble) (s : State),
    (s.key = none → RunsAs (.skp x) s [] (s.pc.toNat + 2) (fun _ => True) ∧
      RunsAs (.sknp x) s [] (s.pc.toNat + 4) (fun _ => True)) ∧
    (∀ k, s.key = some k →
      RunsAs (.skp x) s [] (if k.toNat = (s.readV x).toNat then s.pc.toNat + 4 else s.pc.toNat + 2) (fun _ => True) ∧
      RunsAs (.sknp x) s [] (if k.toNat = (s.readV x).toNat then s.pc.toNat + 2 else s.pc.toNat + 4) (fun _ => True))

/-! ### Loads -/

/-- LD Vx,kk and LD Vx,Vy write `V[x]` alone (R140, R141). -/
def Obligations.ImmediateLoadAndCopyWriteOneRegister : Prop :=
  ∀ (x y : Nibble) (kk : Byte) (s : State),
    decode (BitVec.ofNat 16 (0x6000 + x.toNat * 256 + kk.toNat)) = .ok (.ldImm x kk) ∧
    RunsAs (.ldImm x kk) s [.registers] (s.pc.toNat + 2) (fun t =>
      ∀ r, t.readV r = if r = x then kk else s.readV r) ∧
    decode (BitVec.ofNat 16 (0x8000 + x.toNat * 256 + y.toNat * 16)) = .ok (.ldReg x y) ∧
    RunsAs (.ldReg x y) s [.registers] (s.pc.toNat + 2) (fun t =>
      ∀ r, t.readV r = if r = x then s.readV y else s.readV r)

/-- LD I,nnn (R142). -/
def Obligations.LoadIndexTakesItsAddress : Prop :=
  ∀ (nnn : Addr) (s : State), decode (BitVec.ofNat 16 (0xA000 + nnn.toNat)) = .ok (.ldI nnn) ∧
    RunsAs (.ldI nnn) s [.index] (s.pc.toNat + 2) (fun t => t.index.toNat = nnn.toNat)

/-- LD [I],Vx stores `V[0]` to `V[x]` at `I`, `I + 1`, ... modulo 4096 and changes no other byte (R143; that `I` is
unchanged is the spec's decision D15). -/
def Obligations.BlockStoreWritesV0ToVx : Prop :=
  ∀ (x : Nibble) (s : State), RunsAs (.ldMemVx x) s [.memory] (s.pc.toNat + 2) (fun t =>
    (∀ r : Nibble, r.toNat ≤ x.toNat → t.memRead (s.effAddr r.toNat) = s.readV r) ∧
    (∀ a, (∀ i, i ≤ x.toNat → a % 4096 ≠ s.effAddr i % 4096) → t.memRead a = s.memRead a))

/-- LD Vx,[I] loads `V[0]` to `V[x]` from `I`, `I + 1`, ... modulo 4096; the registers above `x` keep their values
(R144; that `I` is unchanged is the spec's decision D15). -/
def Obligations.BlockLoadReadsV0ToVx : Prop :=
  ∀ (x : Nibble) (s : State), RunsAs (.ldVxMem x) s [.registers] (s.pc.toNat + 2) (fun t =>
    ∀ r : Nibble, t.readV r = if r.toNat ≤ x.toNat then s.memRead (s.effAddr r.toNat) else s.readV r)

/-- LD B,Vx writes the hundreds, tens and ones digits at `I`, `I + 1`, `I + 2` modulo 4096 and changes no other byte
(R145; that `I` is unchanged is the spec's decision D15). -/
def Obligations.BcdStoreWritesThreeDigits : Prop :=
  ∀ (x : Nibble) (s : State), RunsAs (.ldBVx x) s [.memory] (s.pc.toNat + 2) (fun t =>
    (t.memRead (s.effAddr 0)).toNat = (s.readV x).toNat / 100 ∧
    (t.memRead (s.effAddr 1)).toNat = (s.readV x).toNat / 10 % 10 ∧
    (t.memRead (s.effAddr 2)).toNat = (s.readV x).toNat % 10 ∧
    (∀ a, (∀ i, i < 3 → a % 4096 ≠ s.effAddr i % 4096) → t.memRead a = s.memRead a))

/-- LD F,Vx multiplies the whole byte by five (R146). -/
def Obligations.GlyphAddressIsFiveTimesTheByte : Prop :=
  ∀ (x : Nibble) (s : State),
    decode (BitVec.ofNat 16 (0xF029 + x.toNat * 256)) = .ok (.ldFVx x) ∧
    RunsAs (.ldFVx x) s [.index] (s.pc.toNat + 2) (fun t => t.index.toNat = (s.readV x).toNat * 5)

/-- LD Vx,DT reads the delay timer after this step's tick (R147). -/
def Obligations.DelayTimerIsReadAfterItsTick : Prop :=
  ∀ (x : Nibble) (s : State),
    decode (BitVec.ofNat 16 (0xF007 + x.toNat * 256)) = .ok (.ldVxDT x) ∧
    RunsAs (.ldVxDT x) s [.registers] (s.pc.toNat + 2) (fun t =>
      ∀ r, (t.readV r).toNat = if r = x then s.dt.toNat - 1 else (s.readV r).toNat)

/-- LD DT,Vx and LD ST,Vx write their timer after this step's tick; the other timer has ticked (R148, R149). -/
def Obligations.TimersAreSetAfterTheTick : Prop :=
  ∀ (x : Nibble) (s : State),
    decode (BitVec.ofNat 16 (0xF015 + x.toNat * 256)) = .ok (.ldDTVx x) ∧
    (∃ t, exec (.ldDTVx x) s = .next t ∧ t.dt = s.readV x ∧ t.st.toNat = s.st.toNat - 1 ∧
      PcBecomes (s.pc.toNat + 2) t ∧ OnlyChanges [.pc, .delayTimer, .soundTimer] s t) ∧
    decode (BitVec.ofNat 16 (0xF018 + x.toNat * 256)) = .ok (.ldSTVx x) ∧
    (∃ t, exec (.ldSTVx x) s = .next t ∧ t.st = s.readV x ∧ t.dt.toNat = s.dt.toNat - 1 ∧
      PcBecomes (s.pc.toNat + 2) t ∧ OnlyChanges [.pc, .delayTimer, .soundTimer] s t)

/-- LD Vx,K: without a key the instruction is presented again, with one its code is written and execution moves on
(R151; level sensitivity is the spec's decision D14). -/
def Obligations.KeyWaitRetriesUntilAKey : Prop :=
  ∀ (x : Nibble) (s : State),
    (s.key = none → RunsAs (.ldVxK x) s [] s.pc.toNat (fun _ => True)) ∧
    (∀ k, s.key = some k → RunsAs (.ldVxK x) s [.registers] (s.pc.toNat + 2) (fun t =>
      ∀ r, (t.readV r).toNat = if r = x then k.toNat else (s.readV r).toNat))

/-- A wait of `n` attempts without a key and one with a key `k` takes `n + 1` steps, costs `n + 1` timer counts, and
ends with `V[x] = k` after the instruction (R111, R151; D14; the scripted inputs are the model's, log entry 1). -/
def Obligations.KeyWaitSpansItsAttempts : Prop :=
  ∀ (x k : Nibble) (rnd : Byte) (before rest : List StepInput) (s : State), s.halted = false →
    decode s.fetch = .ok (.ldVxK x) → (∀ i ∈ before, i.key = none) →
    s.inputs = before ++ { key := some k, rnd := rnd } :: rest →
    ∃ t, Sys2Proof.core.run (before.length + 1) s = .next t ∧
      (∀ r, (t.readV r).toNat = if r = x then k.toNat else (s.readV r).toNat) ∧
      t.dt.toNat = s.dt.toNat - (before.length + 1) ∧ t.st.toNat = s.st.toNat - (before.length + 1) ∧
      t.inputs = rest ∧ PcBecomes (s.pc.toNat + 2) t ∧
      OnlyChanges [.registers, .pc, .delayTimer, .soundTimer, .loadPort, .environment] s t

/-! ### Arithmetic and logic -/

/-- ADD Vx,Vy: sum modulo 256 and carry flag; the flag is written last, so with `x` = 15 `VF` ends as the flag (R160;
R171's order is the spec's decision D10, log entry 9). -/
def Obligations.AddWritesSumAndCarry : Prop :=
  ∀ (x y : Nibble) (s : State), RunsAs (.addReg x y) s [.registers] (s.pc.toNat + 2) (fun t =>
    ∀ r, (t.readV r).toNat =
      if r = 0xF#4 then (if (s.readV x).toNat + (s.readV y).toNat > 255 then 1 else 0)
      else if r = x then ((s.readV x).toNat + (s.readV y).toNat) % 256
      else (s.readV r).toNat)

/-- ADD Vx,kk wraps silently with no flag effect (R161). -/
def Obligations.AddImmediateHasNoFlag : Prop :=
  ∀ (x : Nibble) (kk : Byte) (s : State),
    decode (BitVec.ofNat 16 (0x7000 + x.toNat * 256 + kk.toNat)) = .ok (.addImm x kk) ∧
    RunsAs (.addImm x kk) s [.registers] (s.pc.toNat + 2) (fun t =>
      ∀ r, (t.readV r).toNat = if r = x then ((s.readV x).toNat + kk.toNat) % 256 else (s.readV r).toNat)

/-- SUB Vx,Vy: difference modulo 256, flag 1 when no borrow occurred, equal operands among it; the flag is written
last (R162; R171's order is the spec's decision D10, log entry 9). -/
def Obligations.SubWritesDifferenceAndNoBorrow : Prop :=
  ∀ (x y : Nibble) (s : State), RunsAs (.subReg x y) s [.registers] (s.pc.toNat + 2) (fun t =>
    ∀ r, (t.readV r).toNat =
      if r = 0xF#4 then (if (s.readV y).toNat ≤ (s.readV x).toNat then 1 else 0)
      else if r = x then ((s.readV x).toNat + 256 - (s.readV y).toNat) % 256
      else (s.readV r).toNat)

/-- SUBN Vx,Vy: reverse difference modulo 256, flag 1 when no borrow occurred; the flag is written last (R163, D7;
R171's order is the spec's decision D10, log entry 9). -/
def Obligations.SubnWritesReverseDifferenceAndNoBorrow : Prop :=
  ∀ (x y : Nibble) (s : State), RunsAs (.subnReg x y) s [.registers] (s.pc.toNat + 2) (fun t =>
    ∀ r, (t.readV r).toNat =
      if r = 0xF#4 then (if (s.readV x).toNat ≤ (s.readV y).toNat then 1 else 0)
      else if r = x then ((s.readV y).toNat + 256 - (s.readV x).toNat) % 256
      else (s.readV r).toNat)

/-- AND, OR and XOR write `V[x]` alone, bit by bit, and no flag (R164 to R166; that `VF` is unchanged is the spec's
decision D16). -/
def Obligations.LogicWritesBitwiseResultOnly : Prop :=
  ∀ (x y : Nibble) (s : State),
    RunsAs (.andReg x y) s [.registers] (s.pc.toNat + 2) (fun t => ∀ r,
      (∀ j, (t.readV r).getLsbD j =
        if r = x then ((s.readV x).getLsbD j && (s.readV y).getLsbD j) else (s.readV r).getLsbD j)) ∧
    RunsAs (.orReg x y) s [.registers] (s.pc.toNat + 2) (fun t => ∀ r,
      (∀ j, (t.readV r).getLsbD j =
        if r = x then ((s.readV x).getLsbD j || (s.readV y).getLsbD j) else (s.readV r).getLsbD j)) ∧
    RunsAs (.xorReg x y) s [.registers] (s.pc.toNat + 2) (fun t => ∀ r,
      (∀ j, (t.readV r).getLsbD j =
        if r = x then ((s.readV x).getLsbD j ^^ (s.readV y).getLsbD j) else (s.readV r).getLsbD j))

/-- SHR Vx halves `V[x]` with the evicted low bit as flag, whatever `y` is; the flag is written last (R167; R171's
order is the spec's decision D10, log entry 9). -/
def Obligations.ShiftRightHalvesAndEvictsLowBit : Prop :=
  ∀ (x y : Nibble) (s : State), RunsAs (.shr x y) s [.registers] (s.pc.toNat + 2) (fun t =>
    ∀ r, (t.readV r).toNat =
      if r = 0xF#4 then (s.readV x).toNat % 2
      else if r = x then (s.readV x).toNat / 2
      else (s.readV r).toNat)

/-- SHL Vx doubles `V[x]` modulo 256 with the evicted high bit as flag, whatever `y` is; the flag is written last
(R168; R171's order is the spec's decision D10, log entry 9). -/
def Obligations.ShiftLeftDoublesAndEvictsHighBit : Prop :=
  ∀ (x y : Nibble) (s : State), RunsAs (.shl x y) s [.registers] (s.pc.toNat + 2) (fun t =>
    ∀ r, (t.readV r).toNat =
      if r = 0xF#4 then (s.readV x).toNat / 128
      else if r = x then 2 * (s.readV x).toNat % 256
      else (s.readV r).toNat)

/-! ### Random, draw, clear -/

/-- RND Vx,kk masks the random byte of this step, whatever byte that is (R190). -/
def Obligations.RandomByteIsMasked : Prop :=
  ∀ (x : Nibble) (kk : Byte) (s : State),
    decode (BitVec.ofNat 16 (0xC000 + x.toNat * 256 + kk.toNat)) = .ok (.rnd x kk) ∧
    RunsAs (.rnd x kk) s [.registers] (s.pc.toNat + 2) (fun t =>
      ∀ r j, (t.readV r).getLsbD j = if r = x then (s.rnd.getLsbD j && kk.getLsbD j) else (s.readV r).getLsbD j)

/-- `TogglePixel` flips its cell alone and reports exactly the flip from on to off (R180). -/
def Obligations.ToggleReportsOnToOff : Prop :=
  ∀ (fb : FrameBuffer) (cx : BitVec 6) (cy : BitVec 5),
    (fbGet fb cx cy = true →
      (togglePixel fb cx cy).2 = true ∧ fbGet (togglePixel fb cx cy).1 cx cy = false) ∧
    (fbGet fb cx cy = false →
      (togglePixel fb cx cy).2 = false ∧ fbGet (togglePixel fb cx cy).1 cx cy = true) ∧
    (∀ cx' cy', (cx', cy') ≠ (cx, cy) → fbGet (togglePixel fb cx cy).1 cx' cy' = fbGet fb cx' cy')

/-- DRW Vx,Vy,n is the exclusive OR of the sprite onto the buffer, wrapping per pixel, with `VF` = 1 exactly when a
covered cell was on (R182; the bit order of R183 is the spec's decision D12, the reading of the coordinates before
`VF` is written D11, log entry 9). -/
def Obligations.DrawTogglesCoveredCellsAndReportsCollision : Prop :=
  ∀ (x y n : Nibble) (s : State), RunsAs (.drw x y n) s [.registers, .frameBuffer] (s.pc.toNat + 2) (fun t =>
    (∀ cx cy, SpriteCovers s x y n cx cy → t.pixel cx cy = !s.pixel cx cy) ∧
    (∀ cx cy, ¬ SpriteCovers s x y n cx cy → t.pixel cx cy = s.pixel cx cy) ∧
    (t.readV 0xF#4 = 0x00#8 ∨ t.readV 0xF#4 = 0x01#8) ∧
    (t.readV 0xF#4 = 0x01#8 ↔ ∃ cx cy, SpriteCovers s x y n cx cy ∧ s.pixel cx cy = true) ∧
    (∀ r, r ≠ 0xF#4 → t.readV r = s.readV r))

/-- Drawing the same sprite twice at the same place restores the buffer; the second draw reports a collision exactly
when a covered cell was off before the first draw, so after a first draw without collision exactly when the sprite has
a set bit. This follows from R182; R184 (d), marked as derived, says the last of it without the condition (log entry
18). With `x` or `y` = 15 the flag moves the sprite, so those two forms are not drawn at the same place. -/
def Obligations.DrawingTwiceRestoresTheBuffer : Prop :=
  ∀ (x y n : Nibble) (s t u : State), x ≠ 0xF#4 → y ≠ 0xF#4 →
    exec (.drw x y n) s = .next t → exec (.drw x y n) t = .next u →
    (∀ cx cy, u.pixel cx cy = s.pixel cx cy) ∧
    (u.readV 0xF#4 = 0x01#8 ↔ ∃ cx cy, SpriteCovers s x y n cx cy ∧ s.pixel cx cy = false) ∧
    (t.readV 0xF#4 = 0x00#8 →
      (u.readV 0xF#4 = 0x01#8 ↔ ∃ r, r < n.toNat ∧ s.memRead (s.index.toNat + r) ≠ 0x00#8))

/-- CLS turns every cell off and changes nothing else (R195); and the frame-buffer read port shows, in every state, the
cell it is asked for, so that after CLS it shows every cell off (R11; D19). -/
def Obligations.ClearTurnsEveryCellOff : Prop :=
  ∀ s : State, decode 0x00E0#16 = .ok .cls ∧ (∀ fbX fbY, fbPixel s fbX fbY = s.pixel fbX fbY) ∧
    RunsAs .cls s [.frameBuffer] (s.pc.toNat + 2) (fun t =>
      ∀ cx cy, t.pixel cx cy = false ∧ fbPixel t cx cy = false)

/-! ### Reset, program load, invariant -/

/-- A reset edge leaves every field of R40 at its reset value whatever the state before, the memory at the block's
`MEM_INIT` image, whatever that is; with the all-zero image, the parameter's default, it leaves the model's reset state,
but for the model's own fields (R40, R41, R230; the values are the spec's decisions D2, D3, D4 and D27, followed by log
entries 2 and 3; that the model's own fields stay is log entry 19). -/
def Obligations.ResetIsTotal : Prop :=
  ∀ (image : Vector Byte 4096) (s t : State) (e : EdgeInput), e.rst = true → t = clockEdge image e s →
    (∀ r, t.readV r = 0x00#8) ∧ t.index = 0x0000#16 ∧ t.pc = 0x0200#16 ∧
    t.sp.val = 0 ∧ (∀ j : Fin 12, t.stack[j] = 0x0000#16) ∧
    t.dt = 0x00#8 ∧ t.st = 0x00#8 ∧ (∀ cx cy, t.pixel cx cy = false) ∧
    (∀ a (h : a < 4096), t.memRead a = image[a]) ∧
    statusOf t = { halted := false, faultCode := 0#2, faultInstr := 0x0000#16, stkOvf := false, stkUnf := false } ∧
    t.boot = true ∧ t.ldPtr = 0x200#12 ∧
    (image = Vector.replicate 4096 0x00#8 → t = { State.reset with inputs := s.inputs, steps := s.steps })

/-- In the boot phase the load port lays the program's bytes out from the load pointer on, modulo 4096, the later byte
winning, and changes nothing else but the pointer (R233, R231; the protocol is the spec's decision D25). -/
def Obligations.LoadPortLaysOutTheProgram : Prop :=
  ∀ (image : Vector Byte 4096) (e : EdgeInput) (rom : List Byte) (s : State),
    e.rst = false → e.stepEn = false → e.ldEn = true → s.boot = true →
    ∃ t, t = rom.foldl (fun u b => clockEdge image { e with ldData := b } u) s ∧
      t.boot = true ∧ t.ldPtr.toNat = (s.ldPtr.toNat + rom.length) % 4096 ∧
      (∀ i (h : i < rom.length), rom.length ≤ i + 4096 → t.memRead (s.ldPtr.toNat + i) = rom[i]) ∧
      (∀ a, (∀ i, i < rom.length → a % 4096 ≠ (s.ldPtr.toNat + i) % 4096) → t.memRead a = s.memRead a) ∧
      OnlyChanges [.memory, .loadPort] s t

/-- The launch state of any `MEM_INIT` image and any program: the program's bytes from 0x200 on, modulo 4096, the later
byte winning, the image elsewhere, everything else as after reset but the load port (R232, R233; D3, D25, D30); and the
invariant of reachable states holds there (R39, marked as derived; the boot phase not halted is R231, D25; the canonical
form of memory is the model's choice, log entry 10). -/
def Obligations.LaunchStateHoldsImageAndProgram : Prop :=
  ∀ (image : Vector Byte 4096) (rom : List Byte),
    (∀ i (h : i < rom.length), rom.length ≤ i + 4096 → (State.launch image rom).memRead (0x200 + i) = rom[i]) ∧
    (∀ a (h : a < 4096), (∀ i, i < rom.length → a ≠ (0x200 + i) % 4096) →
      (State.launch image rom).memRead a = image[a]) ∧
    OnlyChanges [.memory, .loadPort] State.reset (State.launch image rom) ∧ (State.launch image rom).Inv

/-- After the first step, one that faults too (log entry 17), the load port is ignored until the next reset: a clock edge
that is neither a reset nor a step changes nothing (R231, R7; D25, D1). -/
def Obligations.LoadPortIsIgnoredAfterTheFirstStep : Prop :=
  ∀ (image : Vector Byte 4096) (s t : State) (e : EdgeInput), step s = .next t → e.rst = false → e.stepEn = false →
    clockEdge image e t = t

/-- The invariant of reachable states holds at reset (R39, marked as derived, R40; D2, D27; that the boot phase is not
halted is R231, D25; the canonical form of memory is the model's choice, log entry 10). -/
def Obligations.InvariantHoldsAtReset : Prop := State.reset.Inv

/-- Every step keeps the invariant of reachable states (R39, marked as derived, and R33, D4, for the stack flags).
Two clauses are neither's: the canonical form of memory is the model's choice, log entry 10, and that a block in the
boot phase is not halted rests on a faulting step ending the boot phase, R231, D25 and log entry 17. -/
def Obligations.StepKeepsTheInvariant : Prop := ∀ s t : State, s.Inv → step s = .next t → t.Inv

/-- Every clock edge keeps the invariant of reachable states, whatever the inputs and the `MEM_INIT` image: a reset, a
step, a load, a step asked of a halted block (R39, marked as derived, R33, D4, R7; which request an edge serves is log
entry 6). Two clauses are neither R39's nor R33's: the canonical form of memory is the model's choice, log entry 10, and that a block in the
boot phase is not halted rests on a faulting step ending the boot phase, R231, D25 and log entry 17. -/
def Obligations.ClockEdgeKeepsTheInvariant : Prop :=
  ∀ (image : Vector Byte 4096) (e : EdgeInput) (s : State), s.Inv → (clockEdge image e s).Inv
end

