-- ==== Sys2Proof/Laws/Decode.lean ====
section
/-! SUPPORT. The fields of a word and the words put together from fields, as numbers (spec/30_encoding.md R71, R72):
one lemma per function, so that decoding proofs are linear arithmetic. -/

namespace Sys2Proof

/-! ### Fields as numbers (R71) -/

theorem opOf_toNat (w : Word) : (opOf w).toNat = w.toNat / 4096 := by
  have := w.isLt
  simp only [opOf, BitVec.extractLsb'_toNat, Nat.shiftRight_eq_div_pow]
  omega

theorem xOf_toNat (w : Word) : (xOf w).toNat = w.toNat / 256 % 16 := by
  simp only [xOf, BitVec.extractLsb'_toNat, Nat.shiftRight_eq_div_pow]

theorem yOf_toNat (w : Word) : (yOf w).toNat = w.toNat / 16 % 16 := by
  simp only [yOf, BitVec.extractLsb'_toNat, Nat.shiftRight_eq_div_pow]

theorem nOf_toNat (w : Word) : (nOf w).toNat = w.toNat % 16 := by
  simp only [nOf, BitVec.extractLsb'_toNat, Nat.shiftRight_zero]

theorem kkOf_toNat (w : Word) : (kkOf w).toNat = w.toNat % 256 := by
  simp only [kkOf, BitVec.extractLsb'_toNat, Nat.shiftRight_zero]

theorem nnnOf_toNat (w : Word) : (nnnOf w).toNat = w.toNat % 4096 := by
  simp only [nnnOf, BitVec.extractLsb'_toNat, Nat.shiftRight_zero]

theorem highByte_toNat (w : Word) : (highByte w).toNat = w.toNat / 256 := by
  have := w.isLt
  simp only [highByte, BitVec.extractLsb'_toNat, Nat.shiftRight_eq_div_pow]
  omega

theorem lowByte_toNat (w : Word) : (lowByte w).toNat = w.toNat % 256 := by
  simp only [lowByte, BitVec.extractLsb'_toNat, Nat.shiftRight_zero]

/-! ### Words as numbers (R72, R53) -/

/-- Concatenation is shift and add (R13). -/
theorem append_toNat {m n : Nat} (a : BitVec m) (b : BitVec n) : (a ++ b).toNat = a.toNat * 2 ^ n + b.toNat := by
  rw [BitVec.toNat_append, ← Nat.shiftLeft_add_eq_or_of_lt b.isLt, Nat.shiftLeft_eq]

theorem wordOfBytes_toNat (hi lo : Byte) : (wordOfBytes hi lo).toNat = hi.toNat * 256 + lo.toNat := append_toNat hi lo

theorem formatA_toNat (op : Nibble) (nnn : Addr) : (formatA op nnn).toNat = op.toNat * 4096 + nnn.toNat :=
  append_toNat op nnn

theorem formatXK_toNat (op x : Nibble) (kk : Byte) :
    (formatXK op x kk).toNat = op.toNat * 4096 + x.toNat * 256 + kk.toNat := by
  have h : (formatXK op x kk).toNat = (op ++ x).toNat * 2 ^ 8 + kk.toNat := append_toNat (op ++ x) kk
  rw [h, append_toNat]
  omega

theorem formatXYN_toNat (op x y n : Nibble) :
    (formatXYN op x y n).toNat = op.toNat * 4096 + x.toNat * 256 + y.toNat * 16 + n.toNat := by
  have h : (formatXYN op x y n).toNat = (op ++ x ++ y).toNat * 2 ^ 4 + n.toNat := append_toNat (op ++ x ++ y) n
  rw [h, append_toNat, append_toNat]
  omega

/-! ### A word put together and taken apart -/

@[simp] theorem opOf_formatA (op : Nibble) (nnn : Addr) : opOf (formatA op nnn) = op := by
  have := nnn.isLt
  apply BitVec.eq_of_toNat_eq
  rw [opOf_toNat, formatA_toNat]
  omega

@[simp] theorem nnnOf_formatA (op : Nibble) (nnn : Addr) : nnnOf (formatA op nnn) = nnn := by
  have := nnn.isLt
  apply BitVec.eq_of_toNat_eq
  rw [nnnOf_toNat, formatA_toNat]
  omega

@[simp] theorem opOf_formatXK (op x : Nibble) (kk : Byte) : opOf (formatXK op x kk) = op := by
  have := kk.isLt
  have := x.isLt
  apply BitVec.eq_of_toNat_eq
  rw [opOf_toNat, formatXK_toNat]
  omega

@[simp] theorem xOf_formatXK (op x : Nibble) (kk : Byte) : xOf (formatXK op x kk) = x := by
  have := kk.isLt
  have := x.isLt
  apply BitVec.eq_of_toNat_eq
  rw [xOf_toNat, formatXK_toNat]
  omega

@[simp] theorem kkOf_formatXK (op x : Nibble) (kk : Byte) : kkOf (formatXK op x kk) = kk := by
  have := kk.isLt
  apply BitVec.eq_of_toNat_eq
  rw [kkOf_toNat, formatXK_toNat]
  omega

@[simp] theorem opOf_formatXYN (op x y n : Nibble) : opOf (formatXYN op x y n) = op := by
  have := x.isLt
  have := y.isLt
  have := n.isLt
  apply BitVec.eq_of_toNat_eq
  rw [opOf_toNat, formatXYN_toNat]
  omega

@[simp] theorem xOf_formatXYN (op x y n : Nibble) : xOf (formatXYN op x y n) = x := by
  have := x.isLt
  have := y.isLt
  have := n.isLt
  apply BitVec.eq_of_toNat_eq
  rw [xOf_toNat, formatXYN_toNat]
  omega

@[simp] theorem yOf_formatXYN (op x y n : Nibble) : yOf (formatXYN op x y n) = y := by
  have := y.isLt
  have := n.isLt
  apply BitVec.eq_of_toNat_eq
  rw [yOf_toNat, formatXYN_toNat]
  omega

@[simp] theorem nOf_formatXYN (op x y n : Nibble) : nOf (formatXYN op x y n) = n := by
  have := n.isLt
  apply BitVec.eq_of_toNat_eq
  rw [nOf_toNat, formatXYN_toNat]
  omega

/-- A word is the one its fields put together, in each format (R71: `nnn` = `x :: kk`, `kk` = `y :: n`). -/
theorem formatA_fields (w : Word) : formatA (opOf w) (nnnOf w) = w := by
  apply BitVec.eq_of_toNat_eq
  rw [formatA_toNat, opOf_toNat, nnnOf_toNat]
  omega

theorem formatXK_fields (w : Word) : formatXK (opOf w) (xOf w) (kkOf w) = w := by
  apply BitVec.eq_of_toNat_eq
  rw [formatXK_toNat, opOf_toNat, xOf_toNat, kkOf_toNat]
  omega

theorem formatXYN_fields (w : Word) : formatXYN (opOf w) (xOf w) (yOf w) (nOf w) = w := by
  apply BitVec.eq_of_toNat_eq
  rw [formatXYN_toNat, opOf_toNat, xOf_toNat, yOf_toNat, nOf_toNat]
  omega

/-- A word is the one its two bytes put together (R70). -/
theorem wordOfBytes_bytes (w : Word) : wordOfBytes (highByte w) (lowByte w) = w := by
  apply BitVec.eq_of_toNat_eq
  rw [wordOfBytes_toNat, highByte_toNat, lowByte_toNat]
  omega

/-! ### The fixed bits of each format (R72) -/

theorem formatA_mask (op : Nibble) (nnn : Addr) : formatA op nnn &&& 0xF000#16 = formatA op 0#12 := by
  have h : ∀ b : BitVec (4 + 12), b = op ++ nnn → b &&& 0xF000#16 = op ++ 0#12 := by
    rintro _ rfl
    ext i hi
    simp only [BitVec.getElem_and, BitVec.getElem_append]
    interval_cases i <;> simp
  exact h _ rfl

theorem formatXK_mask_op (op x : Nibble) (kk : Byte) : formatXK op x kk &&& 0xF000#16 = formatXK op 0#4 0#8 := by
  have h : ∀ b : BitVec (4 + 4 + 8), b = op ++ x ++ kk → b &&& 0xF000#16 = op ++ 0#4 ++ 0#8 := by
    rintro _ rfl
    ext i hi
    simp only [BitVec.getElem_and, BitVec.getElem_append]
    interval_cases i <;> simp
  exact h _ rfl

theorem formatXK_mask_op_kk (op x : Nibble) (kk : Byte) : formatXK op x kk &&& 0xF0FF#16 = formatXK op 0#4 kk := by
  have h : ∀ b : BitVec (4 + 4 + 8), b = op ++ x ++ kk → b &&& 0xF0FF#16 = op ++ 0#4 ++ kk := by
    rintro _ rfl
    ext i hi
    simp only [BitVec.getElem_and, BitVec.getElem_append]
    interval_cases i <;> simp
  exact h _ rfl

theorem formatXYN_mask_op (op x y n : Nibble) : formatXYN op x y n &&& 0xF000#16 = formatXYN op 0#4 0#4 0#4 := by
  have h : ∀ b : BitVec (4 + 4 + 4 + 4), b = op ++ x ++ y ++ n → b &&& 0xF000#16 = op ++ 0#4 ++ 0#4 ++ 0#4 := by
    rintro _ rfl
    ext i hi
    simp only [BitVec.getElem_and, BitVec.getElem_append]
    interval_cases i <;> simp
  exact h _ rfl

theorem formatXYN_mask_op_n (op x y n : Nibble) : formatXYN op x y n &&& 0xF00F#16 = formatXYN op 0#4 0#4 n := by
  have h : ∀ b : BitVec (4 + 4 + 4 + 4), b = op ++ x ++ y ++ n → b &&& 0xF00F#16 = op ++ 0#4 ++ 0#4 ++ n := by
    rintro _ rfl
    ext i hi
    simp only [BitVec.getElem_and, BitVec.getElem_append]
    interval_cases i <;> simp
  exact h _ rfl

/-! ### The decode tree by its top nibble (R75) -/

/-- A nibble has sixteen values. -/
theorem nibble_cases (b : Nibble) :
    b = 0x0#4 ∨ b = 0x1#4 ∨ b = 0x2#4 ∨ b = 0x3#4 ∨ b = 0x4#4 ∨ b = 0x5#4 ∨ b = 0x6#4 ∨ b = 0x7#4 ∨
      b = 0x8#4 ∨ b = 0x9#4 ∨ b = 0xA#4 ∨ b = 0xB#4 ∨ b = 0xC#4 ∨ b = 0xD#4 ∨ b = 0xE#4 ∨ b = 0xF#4 := by
  revert b
  decide

section

variable {w : Word} (subn : Bool)

theorem decodeWith_op0 (h : opOf w = 0x0#4) : decodeWith subn w = decodeZero w := by
  simp [decodeWith, h]

theorem decodeWith_op1 (h : opOf w = 0x1#4) : decodeWith subn w = .ok (.jp (nnnOf w)) := by
  simp [decodeWith, h]

theorem decodeWith_op2 (h : opOf w = 0x2#4) : decodeWith subn w = .ok (.call (nnnOf w)) := by
  simp [decodeWith, h]

theorem decodeWith_op3 (h : opOf w = 0x3#4) : decodeWith subn w = .ok (.seImm (xOf w) (kkOf w)) := by
  simp [decodeWith, h]

theorem decodeWith_op4 (h : opOf w = 0x4#4) : decodeWith subn w = .ok (.sneImm (xOf w) (kkOf w)) := by
  simp [decodeWith, h]

theorem decodeWith_op5 (h : opOf w = 0x5#4) : decodeWith subn w = decodeFive w := by
  simp [decodeWith, h]

theorem decodeWith_op6 (h : opOf w = 0x6#4) : decodeWith subn w = .ok (.ldImm (xOf w) (kkOf w)) := by
  simp [decodeWith, h]

theorem decodeWith_op7 (h : opOf w = 0x7#4) : decodeWith subn w = .ok (.addImm (xOf w) (kkOf w)) := by
  simp [decodeWith, h]

theorem decodeWith_op8 (h : opOf w = 0x8#4) : decodeWith subn w = decodeEight subn w := by
  simp [decodeWith, h]

theorem decodeWith_op9 (h : opOf w = 0x9#4) : decodeWith subn w = decodeNine w := by
  simp [decodeWith, h]

theorem decodeWith_opA (h : opOf w = 0xA#4) : decodeWith subn w = .ok (.ldI (nnnOf w)) := by
  simp [decodeWith, h]

theorem decodeWith_opB (h : opOf w = 0xB#4) : decodeWith subn w = .ok (.jpV0 (nnnOf w)) := by
  simp [decodeWith, h]

theorem decodeWith_opC (h : opOf w = 0xC#4) : decodeWith subn w = .ok (.rnd (xOf w) (kkOf w)) := by
  simp [decodeWith, h]

theorem decodeWith_opD (h : opOf w = 0xD#4) : decodeWith subn w = .ok (.drw (xOf w) (yOf w) (nOf w)) := by
  simp [decodeWith, h]

theorem decodeWith_opE (h : opOf w = 0xE#4) : decodeWith subn w = decodeE w := by
  simp [decodeWith, h]

theorem decodeWith_opF (h : opOf w = 0xF#4) : decodeWith subn w = decodeF w := by
  simp [decodeWith, h]

end

end Sys2Proof
end

