-- ==== Sys2Proof/Laws/State.lean ====
section
/-! SUPPORT. One lemma per field of `State` per named update, and one per read operation an update does not touch, all
true by unfolding, so that no later proof unfolds a record update. -/

namespace Sys2Proof.Machine

variable (s : State)

/-! ### `writeV` -/
@[simp] theorem State.writeV_v (x : Nibble) (b : Byte) : (s.writeV x b).v = s.v.set x.toNat b x.isLt := rfl
@[simp] theorem State.writeV_index (x : Nibble) (b : Byte) : (s.writeV x b).index = s.index := rfl
@[simp] theorem State.writeV_pc (x : Nibble) (b : Byte) : (s.writeV x b).pc = s.pc := rfl
@[simp] theorem State.writeV_stack (x : Nibble) (b : Byte) : (s.writeV x b).stack = s.stack := rfl
@[simp] theorem State.writeV_sp (x : Nibble) (b : Byte) : (s.writeV x b).sp = s.sp := rfl
@[simp] theorem State.writeV_dt (x : Nibble) (b : Byte) : (s.writeV x b).dt = s.dt := rfl
@[simp] theorem State.writeV_st (x : Nibble) (b : Byte) : (s.writeV x b).st = s.st := rfl
@[simp] theorem State.writeV_fb (x : Nibble) (b : Byte) : (s.writeV x b).fb = s.fb := rfl
@[simp] theorem State.writeV_mem (x : Nibble) (b : Byte) : (s.writeV x b).mem = s.mem := rfl
@[simp] theorem State.writeV_halted (x : Nibble) (b : Byte) : (s.writeV x b).halted = s.halted := rfl
@[simp] theorem State.writeV_faultCode (x : Nibble) (b : Byte) : (s.writeV x b).faultCode = s.faultCode := rfl
@[simp] theorem State.writeV_faultInstr (x : Nibble) (b : Byte) : (s.writeV x b).faultInstr = s.faultInstr := rfl
@[simp] theorem State.writeV_stkOvf (x : Nibble) (b : Byte) : (s.writeV x b).stkOvf = s.stkOvf := rfl
@[simp] theorem State.writeV_stkUnf (x : Nibble) (b : Byte) : (s.writeV x b).stkUnf = s.stkUnf := rfl
@[simp] theorem State.writeV_boot (x : Nibble) (b : Byte) : (s.writeV x b).boot = s.boot := rfl
@[simp] theorem State.writeV_ldPtr (x : Nibble) (b : Byte) : (s.writeV x b).ldPtr = s.ldPtr := rfl
@[simp] theorem State.writeV_inputs (x : Nibble) (b : Byte) : (s.writeV x b).inputs = s.inputs := rfl
@[simp] theorem State.writeV_steps (x : Nibble) (b : Byte) : (s.writeV x b).steps = s.steps := rfl
@[simp] theorem State.memRead_writeV (x : Nibble) (b : Byte) (e : Nat) : (s.writeV x b).memRead e = s.memRead e := rfl
@[simp] theorem State.pixel_writeV (x : Nibble) (b : Byte) (cx : BitVec 6) (cy : BitVec 5) : (s.writeV x b).pixel cx cy = s.pixel cx cy := rfl
@[simp] theorem State.sample_writeV (x : Nibble) (b : Byte) : (s.writeV x b).sample = s.sample := rfl
@[simp] theorem State.key_writeV (x : Nibble) (b : Byte) : (s.writeV x b).key = s.key := rfl
@[simp] theorem State.rnd_writeV (x : Nibble) (b : Byte) : (s.writeV x b).rnd = s.rnd := rfl

/-! ### `setIndex` -/
@[simp] theorem State.setIndex_v (w : Word) : (s.setIndex w).v = s.v := rfl
@[simp] theorem State.setIndex_index (w : Word) : (s.setIndex w).index = w := rfl
@[simp] theorem State.setIndex_pc (w : Word) : (s.setIndex w).pc = s.pc := rfl
@[simp] theorem State.setIndex_stack (w : Word) : (s.setIndex w).stack = s.stack := rfl
@[simp] theorem State.setIndex_sp (w : Word) : (s.setIndex w).sp = s.sp := rfl
@[simp] theorem State.setIndex_dt (w : Word) : (s.setIndex w).dt = s.dt := rfl
@[simp] theorem State.setIndex_st (w : Word) : (s.setIndex w).st = s.st := rfl
@[simp] theorem State.setIndex_fb (w : Word) : (s.setIndex w).fb = s.fb := rfl
@[simp] theorem State.setIndex_mem (w : Word) : (s.setIndex w).mem = s.mem := rfl
@[simp] theorem State.setIndex_halted (w : Word) : (s.setIndex w).halted = s.halted := rfl
@[simp] theorem State.setIndex_faultCode (w : Word) : (s.setIndex w).faultCode = s.faultCode := rfl
@[simp] theorem State.setIndex_faultInstr (w : Word) : (s.setIndex w).faultInstr = s.faultInstr := rfl
@[simp] theorem State.setIndex_stkOvf (w : Word) : (s.setIndex w).stkOvf = s.stkOvf := rfl
@[simp] theorem State.setIndex_stkUnf (w : Word) : (s.setIndex w).stkUnf = s.stkUnf := rfl
@[simp] theorem State.setIndex_boot (w : Word) : (s.setIndex w).boot = s.boot := rfl
@[simp] theorem State.setIndex_ldPtr (w : Word) : (s.setIndex w).ldPtr = s.ldPtr := rfl
@[simp] theorem State.setIndex_inputs (w : Word) : (s.setIndex w).inputs = s.inputs := rfl
@[simp] theorem State.setIndex_steps (w : Word) : (s.setIndex w).steps = s.steps := rfl
@[simp] theorem State.readV_setIndex (w : Word) (r : Nibble) : (s.setIndex w).readV r = s.readV r := rfl
@[simp] theorem State.memRead_setIndex (w : Word) (e : Nat) : (s.setIndex w).memRead e = s.memRead e := rfl
@[simp] theorem State.pixel_setIndex (w : Word) (cx : BitVec 6) (cy : BitVec 5) : (s.setIndex w).pixel cx cy = s.pixel cx cy := rfl
@[simp] theorem State.sample_setIndex (w : Word) : (s.setIndex w).sample = s.sample := rfl
@[simp] theorem State.key_setIndex (w : Word) : (s.setIndex w).key = s.key := rfl
@[simp] theorem State.rnd_setIndex (w : Word) : (s.setIndex w).rnd = s.rnd := rfl

/-! ### `setDT` -/
@[simp] theorem State.setDT_v (b : Byte) : (s.setDT b).v = s.v := rfl
@[simp] theorem State.setDT_index (b : Byte) : (s.setDT b).index = s.index := rfl
@[simp] theorem State.setDT_pc (b : Byte) : (s.setDT b).pc = s.pc := rfl
@[simp] theorem State.setDT_stack (b : Byte) : (s.setDT b).stack = s.stack := rfl
@[simp] theorem State.setDT_sp (b : Byte) : (s.setDT b).sp = s.sp := rfl
@[simp] theorem State.setDT_dt (b : Byte) : (s.setDT b).dt = b := rfl
@[simp] theorem State.setDT_st (b : Byte) : (s.setDT b).st = s.st := rfl
@[simp] theorem State.setDT_fb (b : Byte) : (s.setDT b).fb = s.fb := rfl
@[simp] theorem State.setDT_mem (b : Byte) : (s.setDT b).mem = s.mem := rfl
@[simp] theorem State.setDT_halted (b : Byte) : (s.setDT b).halted = s.halted := rfl
@[simp] theorem State.setDT_faultCode (b : Byte) : (s.setDT b).faultCode = s.faultCode := rfl
@[simp] theorem State.setDT_faultInstr (b : Byte) : (s.setDT b).faultInstr = s.faultInstr := rfl
@[simp] theorem State.setDT_stkOvf (b : Byte) : (s.setDT b).stkOvf = s.stkOvf := rfl
@[simp] theorem State.setDT_stkUnf (b : Byte) : (s.setDT b).stkUnf = s.stkUnf := rfl
@[simp] theorem State.setDT_boot (b : Byte) : (s.setDT b).boot = s.boot := rfl
@[simp] theorem State.setDT_ldPtr (b : Byte) : (s.setDT b).ldPtr = s.ldPtr := rfl
@[simp] theorem State.setDT_inputs (b : Byte) : (s.setDT b).inputs = s.inputs := rfl
@[simp] theorem State.setDT_steps (b : Byte) : (s.setDT b).steps = s.steps := rfl
@[simp] theorem State.readV_setDT (b : Byte) (r : Nibble) : (s.setDT b).readV r = s.readV r := rfl
@[simp] theorem State.memRead_setDT (b : Byte) (e : Nat) : (s.setDT b).memRead e = s.memRead e := rfl
@[simp] theorem State.pixel_setDT (b : Byte) (cx : BitVec 6) (cy : BitVec 5) : (s.setDT b).pixel cx cy = s.pixel cx cy := rfl
@[simp] theorem State.sample_setDT (b : Byte) : (s.setDT b).sample = s.sample := rfl
@[simp] theorem State.key_setDT (b : Byte) : (s.setDT b).key = s.key := rfl
@[simp] theorem State.rnd_setDT (b : Byte) : (s.setDT b).rnd = s.rnd := rfl

/-! ### `setST` -/
@[simp] theorem State.setST_v (b : Byte) : (s.setST b).v = s.v := rfl
@[simp] theorem State.setST_index (b : Byte) : (s.setST b).index = s.index := rfl
@[simp] theorem State.setST_pc (b : Byte) : (s.setST b).pc = s.pc := rfl
@[simp] theorem State.setST_stack (b : Byte) : (s.setST b).stack = s.stack := rfl
@[simp] theorem State.setST_sp (b : Byte) : (s.setST b).sp = s.sp := rfl
@[simp] theorem State.setST_dt (b : Byte) : (s.setST b).dt = s.dt := rfl
@[simp] theorem State.setST_st (b : Byte) : (s.setST b).st = b := rfl
@[simp] theorem State.setST_fb (b : Byte) : (s.setST b).fb = s.fb := rfl
@[simp] theorem State.setST_mem (b : Byte) : (s.setST b).mem = s.mem := rfl
@[simp] theorem State.setST_halted (b : Byte) : (s.setST b).halted = s.halted := rfl
@[simp] theorem State.setST_faultCode (b : Byte) : (s.setST b).faultCode = s.faultCode := rfl
@[simp] theorem State.setST_faultInstr (b : Byte) : (s.setST b).faultInstr = s.faultInstr := rfl
@[simp] theorem State.setST_stkOvf (b : Byte) : (s.setST b).stkOvf = s.stkOvf := rfl
@[simp] theorem State.setST_stkUnf (b : Byte) : (s.setST b).stkUnf = s.stkUnf := rfl
@[simp] theorem State.setST_boot (b : Byte) : (s.setST b).boot = s.boot := rfl
@[simp] theorem State.setST_ldPtr (b : Byte) : (s.setST b).ldPtr = s.ldPtr := rfl
@[simp] theorem State.setST_inputs (b : Byte) : (s.setST b).inputs = s.inputs := rfl
@[simp] theorem State.setST_steps (b : Byte) : (s.setST b).steps = s.steps := rfl
@[simp] theorem State.readV_setST (b : Byte) (r : Nibble) : (s.setST b).readV r = s.readV r := rfl
@[simp] theorem State.memRead_setST (b : Byte) (e : Nat) : (s.setST b).memRead e = s.memRead e := rfl
@[simp] theorem State.pixel_setST (b : Byte) (cx : BitVec 6) (cy : BitVec 5) : (s.setST b).pixel cx cy = s.pixel cx cy := rfl
@[simp] theorem State.sample_setST (b : Byte) : (s.setST b).sample = s.sample := rfl
@[simp] theorem State.key_setST (b : Byte) : (s.setST b).key = s.key := rfl
@[simp] theorem State.rnd_setST (b : Byte) : (s.setST b).rnd = s.rnd := rfl

/-! ### `setFb` -/
@[simp] theorem State.setFb_v (g : FrameBuffer) : (s.setFb g).v = s.v := rfl
@[simp] theorem State.setFb_index (g : FrameBuffer) : (s.setFb g).index = s.index := rfl
@[simp] theorem State.setFb_pc (g : FrameBuffer) : (s.setFb g).pc = s.pc := rfl
@[simp] theorem State.setFb_stack (g : FrameBuffer) : (s.setFb g).stack = s.stack := rfl
@[simp] theorem State.setFb_sp (g : FrameBuffer) : (s.setFb g).sp = s.sp := rfl
@[simp] theorem State.setFb_dt (g : FrameBuffer) : (s.setFb g).dt = s.dt := rfl
@[simp] theorem State.setFb_st (g : FrameBuffer) : (s.setFb g).st = s.st := rfl
@[simp] theorem State.setFb_fb (g : FrameBuffer) : (s.setFb g).fb = g := rfl
@[simp] theorem State.setFb_mem (g : FrameBuffer) : (s.setFb g).mem = s.mem := rfl
@[simp] theorem State.setFb_halted (g : FrameBuffer) : (s.setFb g).halted = s.halted := rfl
@[simp] theorem State.setFb_faultCode (g : FrameBuffer) : (s.setFb g).faultCode = s.faultCode := rfl
@[simp] theorem State.setFb_faultInstr (g : FrameBuffer) : (s.setFb g).faultInstr = s.faultInstr := rfl
@[simp] theorem State.setFb_stkOvf (g : FrameBuffer) : (s.setFb g).stkOvf = s.stkOvf := rfl
@[simp] theorem State.setFb_stkUnf (g : FrameBuffer) : (s.setFb g).stkUnf = s.stkUnf := rfl
@[simp] theorem State.setFb_boot (g : FrameBuffer) : (s.setFb g).boot = s.boot := rfl
@[simp] theorem State.setFb_ldPtr (g : FrameBuffer) : (s.setFb g).ldPtr = s.ldPtr := rfl
@[simp] theorem State.setFb_inputs (g : FrameBuffer) : (s.setFb g).inputs = s.inputs := rfl
@[simp] theorem State.setFb_steps (g : FrameBuffer) : (s.setFb g).steps = s.steps := rfl
@[simp] theorem State.readV_setFb (g : FrameBuffer) (r : Nibble) : (s.setFb g).readV r = s.readV r := rfl
@[simp] theorem State.memRead_setFb (g : FrameBuffer) (e : Nat) : (s.setFb g).memRead e = s.memRead e := rfl
@[simp] theorem State.sample_setFb (g : FrameBuffer) : (s.setFb g).sample = s.sample := rfl
@[simp] theorem State.key_setFb (g : FrameBuffer) : (s.setFb g).key = s.key := rfl
@[simp] theorem State.rnd_setFb (g : FrameBuffer) : (s.setFb g).rnd = s.rnd := rfl

/-! ### `memWrite` -/
@[simp] theorem State.memWrite_v (a : Nat) (b : Byte) : (s.memWrite a b).v = s.v := rfl
@[simp] theorem State.memWrite_index (a : Nat) (b : Byte) : (s.memWrite a b).index = s.index := rfl
@[simp] theorem State.memWrite_pc (a : Nat) (b : Byte) : (s.memWrite a b).pc = s.pc := rfl
@[simp] theorem State.memWrite_stack (a : Nat) (b : Byte) : (s.memWrite a b).stack = s.stack := rfl
@[simp] theorem State.memWrite_sp (a : Nat) (b : Byte) : (s.memWrite a b).sp = s.sp := rfl
@[simp] theorem State.memWrite_dt (a : Nat) (b : Byte) : (s.memWrite a b).dt = s.dt := rfl
@[simp] theorem State.memWrite_st (a : Nat) (b : Byte) : (s.memWrite a b).st = s.st := rfl
@[simp] theorem State.memWrite_fb (a : Nat) (b : Byte) : (s.memWrite a b).fb = s.fb := rfl
@[simp] theorem State.memWrite_mem (a : Nat) (b : Byte) : (s.memWrite a b).mem = Memory.store s.mem (wrapAddr a) b := rfl
@[simp] theorem State.memWrite_halted (a : Nat) (b : Byte) : (s.memWrite a b).halted = s.halted := rfl
@[simp] theorem State.memWrite_faultCode (a : Nat) (b : Byte) : (s.memWrite a b).faultCode = s.faultCode := rfl
@[simp] theorem State.memWrite_faultInstr (a : Nat) (b : Byte) : (s.memWrite a b).faultInstr = s.faultInstr := rfl
@[simp] theorem State.memWrite_stkOvf (a : Nat) (b : Byte) : (s.memWrite a b).stkOvf = s.stkOvf := rfl
@[simp] theorem State.memWrite_stkUnf (a : Nat) (b : Byte) : (s.memWrite a b).stkUnf = s.stkUnf := rfl
@[simp] theorem State.memWrite_boot (a : Nat) (b : Byte) : (s.memWrite a b).boot = s.boot := rfl
@[simp] theorem State.memWrite_ldPtr (a : Nat) (b : Byte) : (s.memWrite a b).ldPtr = s.ldPtr := rfl
@[simp] theorem State.memWrite_inputs (a : Nat) (b : Byte) : (s.memWrite a b).inputs = s.inputs := rfl
@[simp] theorem State.memWrite_steps (a : Nat) (b : Byte) : (s.memWrite a b).steps = s.steps := rfl
@[simp] theorem State.readV_memWrite (a : Nat) (b : Byte) (r : Nibble) : (s.memWrite a b).readV r = s.readV r := rfl
@[simp] theorem State.pixel_memWrite (a : Nat) (b : Byte) (cx : BitVec 6) (cy : BitVec 5) : (s.memWrite a b).pixel cx cy = s.pixel cx cy := rfl
@[simp] theorem State.sample_memWrite (a : Nat) (b : Byte) : (s.memWrite a b).sample = s.sample := rfl
@[simp] theorem State.key_memWrite (a : Nat) (b : Byte) : (s.memWrite a b).key = s.key := rfl
@[simp] theorem State.rnd_memWrite (a : Nat) (b : Byte) : (s.memWrite a b).rnd = s.rnd := rfl

/-! ### `present` -/
@[simp] theorem State.present_v (i : StepInput) : (s.present i).v = s.v := rfl
@[simp] theorem State.present_index (i : StepInput) : (s.present i).index = s.index := rfl
@[simp] theorem State.present_pc (i : StepInput) : (s.present i).pc = s.pc := rfl
@[simp] theorem State.present_stack (i : StepInput) : (s.present i).stack = s.stack := rfl
@[simp] theorem State.present_sp (i : StepInput) : (s.present i).sp = s.sp := rfl
@[simp] theorem State.present_dt (i : StepInput) : (s.present i).dt = s.dt := rfl
@[simp] theorem State.present_st (i : StepInput) : (s.present i).st = s.st := rfl
@[simp] theorem State.present_fb (i : StepInput) : (s.present i).fb = s.fb := rfl
@[simp] theorem State.present_mem (i : StepInput) : (s.present i).mem = s.mem := rfl
@[simp] theorem State.present_halted (i : StepInput) : (s.present i).halted = s.halted := rfl
@[simp] theorem State.present_faultCode (i : StepInput) : (s.present i).faultCode = s.faultCode := rfl
@[simp] theorem State.present_faultInstr (i : StepInput) : (s.present i).faultInstr = s.faultInstr := rfl
@[simp] theorem State.present_stkOvf (i : StepInput) : (s.present i).stkOvf = s.stkOvf := rfl
@[simp] theorem State.present_stkUnf (i : StepInput) : (s.present i).stkUnf = s.stkUnf := rfl
@[simp] theorem State.present_boot (i : StepInput) : (s.present i).boot = s.boot := rfl
@[simp] theorem State.present_ldPtr (i : StepInput) : (s.present i).ldPtr = s.ldPtr := rfl
@[simp] theorem State.present_inputs (i : StepInput) : (s.present i).inputs = i :: s.inputs := rfl
@[simp] theorem State.present_steps (i : StepInput) : (s.present i).steps = s.steps := rfl
@[simp] theorem State.readV_present (i : StepInput) (r : Nibble) : (s.present i).readV r = s.readV r := rfl
@[simp] theorem State.memRead_present (i : StepInput) (e : Nat) : (s.present i).memRead e = s.memRead e := rfl
@[simp] theorem State.pixel_present (i : StepInput) (cx : BitVec 6) (cy : BitVec 5) : (s.present i).pixel cx cy = s.pixel cx cy := rfl

/-! ### `timerTick` -/
@[simp] theorem State.timerTick_v : (s.timerTick).v = s.v := rfl
@[simp] theorem State.timerTick_index : (s.timerTick).index = s.index := rfl
@[simp] theorem State.timerTick_pc : (s.timerTick).pc = s.pc := rfl
@[simp] theorem State.timerTick_stack : (s.timerTick).stack = s.stack := rfl
@[simp] theorem State.timerTick_sp : (s.timerTick).sp = s.sp := rfl
@[simp] theorem State.timerTick_dt : (s.timerTick).dt = tickDown s.dt := rfl
@[simp] theorem State.timerTick_st : (s.timerTick).st = tickDown s.st := rfl
@[simp] theorem State.timerTick_fb : (s.timerTick).fb = s.fb := rfl
@[simp] theorem State.timerTick_mem : (s.timerTick).mem = s.mem := rfl
@[simp] theorem State.timerTick_halted : (s.timerTick).halted = s.halted := rfl
@[simp] theorem State.timerTick_faultCode : (s.timerTick).faultCode = s.faultCode := rfl
@[simp] theorem State.timerTick_faultInstr : (s.timerTick).faultInstr = s.faultInstr := rfl
@[simp] theorem State.timerTick_stkOvf : (s.timerTick).stkOvf = s.stkOvf := rfl
@[simp] theorem State.timerTick_stkUnf : (s.timerTick).stkUnf = s.stkUnf := rfl
@[simp] theorem State.timerTick_boot : (s.timerTick).boot = s.boot := rfl
@[simp] theorem State.timerTick_ldPtr : (s.timerTick).ldPtr = s.ldPtr := rfl
@[simp] theorem State.timerTick_inputs : (s.timerTick).inputs = s.inputs := rfl
@[simp] theorem State.timerTick_steps : (s.timerTick).steps = s.steps := rfl
@[simp] theorem State.readV_timerTick (r : Nibble) : (s.timerTick).readV r = s.readV r := rfl
@[simp] theorem State.memRead_timerTick (e : Nat) : (s.timerTick).memRead e = s.memRead e := rfl
@[simp] theorem State.pixel_timerTick (cx : BitVec 6) (cy : BitVec 5) : (s.timerTick).pixel cx cy = s.pixel cx cy := rfl
@[simp] theorem State.sample_timerTick : (s.timerTick).sample = s.sample := rfl
@[simp] theorem State.key_timerTick : (s.timerTick).key = s.key := rfl
@[simp] theorem State.rnd_timerTick : (s.timerTick).rnd = s.rnd := rfl

/-! ### `commitPc` -/
@[simp] theorem State.commitPc_v (w : Word) : (s.commitPc w).v = s.v := rfl
@[simp] theorem State.commitPc_index (w : Word) : (s.commitPc w).index = s.index := rfl
@[simp] theorem State.commitPc_pc (w : Word) : (s.commitPc w).pc = wrapPc w := rfl
@[simp] theorem State.commitPc_stack (w : Word) : (s.commitPc w).stack = s.stack := rfl
@[simp] theorem State.commitPc_sp (w : Word) : (s.commitPc w).sp = s.sp := rfl
@[simp] theorem State.commitPc_dt (w : Word) : (s.commitPc w).dt = s.dt := rfl
@[simp] theorem State.commitPc_st (w : Word) : (s.commitPc w).st = s.st := rfl
@[simp] theorem State.commitPc_fb (w : Word) : (s.commitPc w).fb = s.fb := rfl
@[simp] theorem State.commitPc_mem (w : Word) : (s.commitPc w).mem = s.mem := rfl
@[simp] theorem State.commitPc_halted (w : Word) : (s.commitPc w).halted = s.halted := rfl
@[simp] theorem State.commitPc_faultCode (w : Word) : (s.commitPc w).faultCode = s.faultCode := rfl
@[simp] theorem State.commitPc_faultInstr (w : Word) : (s.commitPc w).faultInstr = s.faultInstr := rfl
@[simp] theorem State.commitPc_stkOvf (w : Word) : (s.commitPc w).stkOvf = s.stkOvf := rfl
@[simp] theorem State.commitPc_stkUnf (w : Word) : (s.commitPc w).stkUnf = s.stkUnf := rfl
@[simp] theorem State.commitPc_boot (w : Word) : (s.commitPc w).boot = s.boot := rfl
@[simp] theorem State.commitPc_ldPtr (w : Word) : (s.commitPc w).ldPtr = s.ldPtr := rfl
@[simp] theorem State.commitPc_inputs (w : Word) : (s.commitPc w).inputs = s.inputs := rfl
@[simp] theorem State.commitPc_steps (w : Word) : (s.commitPc w).steps = s.steps := rfl
@[simp] theorem State.readV_commitPc (w : Word) (r : Nibble) : (s.commitPc w).readV r = s.readV r := rfl
@[simp] theorem State.memRead_commitPc (w : Word) (e : Nat) : (s.commitPc w).memRead e = s.memRead e := rfl
@[simp] theorem State.pixel_commitPc (w : Word) (cx : BitVec 6) (cy : BitVec 5) : (s.commitPc w).pixel cx cy = s.pixel cx cy := rfl
@[simp] theorem State.sample_commitPc (w : Word) : (s.commitPc w).sample = s.sample := rfl
@[simp] theorem State.key_commitPc (w : Word) : (s.commitPc w).key = s.key := rfl
@[simp] theorem State.rnd_commitPc (w : Word) : (s.commitPc w).rnd = s.rnd := rfl

/-! ### `advance` -/
@[simp] theorem State.advance_v : (s.advance).v = s.v := rfl
@[simp] theorem State.advance_index : (s.advance).index = s.index := rfl
@[simp] theorem State.advance_pc : (s.advance).pc = wrapPc (s.pc + 2#16) := rfl
@[simp] theorem State.advance_stack : (s.advance).stack = s.stack := rfl
@[simp] theorem State.advance_sp : (s.advance).sp = s.sp := rfl
@[simp] theorem State.advance_dt : (s.advance).dt = s.dt := rfl
@[simp] theorem State.advance_st : (s.advance).st = s.st := rfl
@[simp] theorem State.advance_fb : (s.advance).fb = s.fb := rfl
@[simp] theorem State.advance_mem : (s.advance).mem = s.mem := rfl
@[simp] theorem State.advance_halted : (s.advance).halted = s.halted := rfl
@[simp] theorem State.advance_faultCode : (s.advance).faultCode = s.faultCode := rfl
@[simp] theorem State.advance_faultInstr : (s.advance).faultInstr = s.faultInstr := rfl
@[simp] theorem State.advance_stkOvf : (s.advance).stkOvf = s.stkOvf := rfl
@[simp] theorem State.advance_stkUnf : (s.advance).stkUnf = s.stkUnf := rfl
@[simp] theorem State.advance_boot : (s.advance).boot = s.boot := rfl
@[simp] theorem State.advance_ldPtr : (s.advance).ldPtr = s.ldPtr := rfl
@[simp] theorem State.advance_inputs : (s.advance).inputs = s.inputs := rfl
@[simp] theorem State.advance_steps : (s.advance).steps = s.steps := rfl
@[simp] theorem State.readV_advance (r : Nibble) : (s.advance).readV r = s.readV r := rfl
@[simp] theorem State.memRead_advance (e : Nat) : (s.advance).memRead e = s.memRead e := rfl
@[simp] theorem State.pixel_advance (cx : BitVec 6) (cy : BitVec 5) : (s.advance).pixel cx cy = s.pixel cx cy := rfl
@[simp] theorem State.sample_advance : (s.advance).sample = s.sample := rfl
@[simp] theorem State.key_advance : (s.advance).key = s.key := rfl
@[simp] theorem State.rnd_advance : (s.advance).rnd = s.rnd := rfl

/-! ### `skipIf` -/
@[simp] theorem State.skipIf_v (c : Bool) : (s.skipIf c).v = s.v := rfl
@[simp] theorem State.skipIf_index (c : Bool) : (s.skipIf c).index = s.index := rfl
@[simp] theorem State.skipIf_pc (c : Bool) : (s.skipIf c).pc = wrapPc (if c then s.pc + 4#16 else s.pc + 2#16) := rfl
@[simp] theorem State.skipIf_stack (c : Bool) : (s.skipIf c).stack = s.stack := rfl
@[simp] theorem State.skipIf_sp (c : Bool) : (s.skipIf c).sp = s.sp := rfl
@[simp] theorem State.skipIf_dt (c : Bool) : (s.skipIf c).dt = s.dt := rfl
@[simp] theorem State.skipIf_st (c : Bool) : (s.skipIf c).st = s.st := rfl
@[simp] theorem State.skipIf_fb (c : Bool) : (s.skipIf c).fb = s.fb := rfl
@[simp] theorem State.skipIf_mem (c : Bool) : (s.skipIf c).mem = s.mem := rfl
@[simp] theorem State.skipIf_halted (c : Bool) : (s.skipIf c).halted = s.halted := rfl
@[simp] theorem State.skipIf_faultCode (c : Bool) : (s.skipIf c).faultCode = s.faultCode := rfl
@[simp] theorem State.skipIf_faultInstr (c : Bool) : (s.skipIf c).faultInstr = s.faultInstr := rfl
@[simp] theorem State.skipIf_stkOvf (c : Bool) : (s.skipIf c).stkOvf = s.stkOvf := rfl
@[simp] theorem State.skipIf_stkUnf (c : Bool) : (s.skipIf c).stkUnf = s.stkUnf := rfl
@[simp] theorem State.skipIf_boot (c : Bool) : (s.skipIf c).boot = s.boot := rfl
@[simp] theorem State.skipIf_ldPtr (c : Bool) : (s.skipIf c).ldPtr = s.ldPtr := rfl
@[simp] theorem State.skipIf_inputs (c : Bool) : (s.skipIf c).inputs = s.inputs := rfl
@[simp] theorem State.skipIf_steps (c : Bool) : (s.skipIf c).steps = s.steps := rfl
@[simp] theorem State.readV_skipIf (c : Bool) (r : Nibble) : (s.skipIf c).readV r = s.readV r := rfl
@[simp] theorem State.memRead_skipIf (c : Bool) (e : Nat) : (s.skipIf c).memRead e = s.memRead e := rfl
@[simp] theorem State.pixel_skipIf (c : Bool) (cx : BitVec 6) (cy : BitVec 5) : (s.skipIf c).pixel cx cy = s.pixel cx cy := rfl
@[simp] theorem State.sample_skipIf (c : Bool) : (s.skipIf c).sample = s.sample := rfl
@[simp] theorem State.key_skipIf (c : Bool) : (s.skipIf c).key = s.key := rfl
@[simp] theorem State.rnd_skipIf (c : Bool) : (s.skipIf c).rnd = s.rnd := rfl

/-! ### `endStep` -/
@[simp] theorem State.endStep_v : (s.endStep).v = s.v := rfl
@[simp] theorem State.endStep_index : (s.endStep).index = s.index := rfl
@[simp] theorem State.endStep_pc : (s.endStep).pc = s.pc := rfl
@[simp] theorem State.endStep_stack : (s.endStep).stack = s.stack := rfl
@[simp] theorem State.endStep_sp : (s.endStep).sp = s.sp := rfl
@[simp] theorem State.endStep_dt : (s.endStep).dt = s.dt := rfl
@[simp] theorem State.endStep_st : (s.endStep).st = s.st := rfl
@[simp] theorem State.endStep_fb : (s.endStep).fb = s.fb := rfl
@[simp] theorem State.endStep_mem : (s.endStep).mem = s.mem := rfl
@[simp] theorem State.endStep_halted : (s.endStep).halted = s.halted := rfl
@[simp] theorem State.endStep_faultCode : (s.endStep).faultCode = s.faultCode := rfl
@[simp] theorem State.endStep_faultInstr : (s.endStep).faultInstr = s.faultInstr := rfl
@[simp] theorem State.endStep_stkOvf : (s.endStep).stkOvf = s.stkOvf := rfl
@[simp] theorem State.endStep_stkUnf : (s.endStep).stkUnf = s.stkUnf := rfl
@[simp] theorem State.endStep_boot : (s.endStep).boot = false := rfl
@[simp] theorem State.endStep_ldPtr : (s.endStep).ldPtr = s.ldPtr := rfl
@[simp] theorem State.endStep_inputs : (s.endStep).inputs = s.inputs.tail := rfl
@[simp] theorem State.endStep_steps : (s.endStep).steps = s.steps + 1 := rfl
@[simp] theorem State.readV_endStep (r : Nibble) : (s.endStep).readV r = s.readV r := rfl
@[simp] theorem State.memRead_endStep (e : Nat) : (s.endStep).memRead e = s.memRead e := rfl
@[simp] theorem State.pixel_endStep (cx : BitVec 6) (cy : BitVec 5) : (s.endStep).pixel cx cy = s.pixel cx cy := rfl

/-! ### `raiseFault` -/
@[simp] theorem State.raiseFault_v (c : FaultCode) (w : Word) : (s.raiseFault c w).v = s.v := rfl
@[simp] theorem State.raiseFault_index (c : FaultCode) (w : Word) : (s.raiseFault c w).index = s.index := rfl
@[simp] theorem State.raiseFault_pc (c : FaultCode) (w : Word) : (s.raiseFault c w).pc = s.pc := rfl
@[simp] theorem State.raiseFault_stack (c : FaultCode) (w : Word) : (s.raiseFault c w).stack = s.stack := rfl
@[simp] theorem State.raiseFault_sp (c : FaultCode) (w : Word) : (s.raiseFault c w).sp = s.sp := rfl
@[simp] theorem State.raiseFault_dt (c : FaultCode) (w : Word) : (s.raiseFault c w).dt = s.dt := rfl
@[simp] theorem State.raiseFault_st (c : FaultCode) (w : Word) : (s.raiseFault c w).st = s.st := rfl
@[simp] theorem State.raiseFault_fb (c : FaultCode) (w : Word) : (s.raiseFault c w).fb = s.fb := rfl
@[simp] theorem State.raiseFault_mem (c : FaultCode) (w : Word) : (s.raiseFault c w).mem = s.mem := rfl
@[simp] theorem State.raiseFault_halted (c : FaultCode) (w : Word) : (s.raiseFault c w).halted = true := rfl
@[simp] theorem State.raiseFault_faultCode (c : FaultCode) (w : Word) : (s.raiseFault c w).faultCode = c := rfl
@[simp] theorem State.raiseFault_faultInstr (c : FaultCode) (w : Word) : (s.raiseFault c w).faultInstr = w := rfl
@[simp] theorem State.raiseFault_stkOvf (c : FaultCode) (w : Word) : (s.raiseFault c w).stkOvf = decide (c = .stackOverflow) := rfl
@[simp] theorem State.raiseFault_stkUnf (c : FaultCode) (w : Word) : (s.raiseFault c w).stkUnf = decide (c = .stackUnderflow) := rfl
@[simp] theorem State.raiseFault_boot (c : FaultCode) (w : Word) : (s.raiseFault c w).boot = s.boot := rfl
@[simp] theorem State.raiseFault_ldPtr (c : FaultCode) (w : Word) : (s.raiseFault c w).ldPtr = s.ldPtr := rfl
@[simp] theorem State.raiseFault_inputs (c : FaultCode) (w : Word) : (s.raiseFault c w).inputs = s.inputs := rfl
@[simp] theorem State.raiseFault_steps (c : FaultCode) (w : Word) : (s.raiseFault c w).steps = s.steps := rfl
@[simp] theorem State.readV_raiseFault (c : FaultCode) (w : Word) (r : Nibble) : (s.raiseFault c w).readV r = s.readV r := rfl
@[simp] theorem State.memRead_raiseFault (c : FaultCode) (w : Word) (e : Nat) : (s.raiseFault c w).memRead e = s.memRead e := rfl
@[simp] theorem State.pixel_raiseFault (c : FaultCode) (w : Word) (cx : BitVec 6) (cy : BitVec 5) : (s.raiseFault c w).pixel cx cy = s.pixel cx cy := rfl
@[simp] theorem State.sample_raiseFault (c : FaultCode) (w : Word) : (s.raiseFault c w).sample = s.sample := rfl
@[simp] theorem State.key_raiseFault (c : FaultCode) (w : Word) : (s.raiseFault c w).key = s.key := rfl
@[simp] theorem State.rnd_raiseFault (c : FaultCode) (w : Word) : (s.raiseFault c w).rnd = s.rnd := rfl

/-! ### `writeResultThenFlag` -/
@[simp] theorem State.writeResultThenFlag_v (x : Nibble) (b : Byte) (f : Bool) : (s.writeResultThenFlag x b f).v = (s.v.set x.toNat b x.isLt).set 15 (flagByte f) := rfl
@[simp] theorem State.writeResultThenFlag_index (x : Nibble) (b : Byte) (f : Bool) : (s.writeResultThenFlag x b f).index = s.index := rfl
@[simp] theorem State.writeResultThenFlag_pc (x : Nibble) (b : Byte) (f : Bool) : (s.writeResultThenFlag x b f).pc = s.pc := rfl
@[simp] theorem State.writeResultThenFlag_stack (x : Nibble) (b : Byte) (f : Bool) : (s.writeResultThenFlag x b f).stack = s.stack := rfl
@[simp] theorem State.writeResultThenFlag_sp (x : Nibble) (b : Byte) (f : Bool) : (s.writeResultThenFlag x b f).sp = s.sp := rfl
@[simp] theorem State.writeResultThenFlag_dt (x : Nibble) (b : Byte) (f : Bool) : (s.writeResultThenFlag x b f).dt = s.dt := rfl
@[simp] theorem State.writeResultThenFlag_st (x : Nibble) (b : Byte) (f : Bool) : (s.writeResultThenFlag x b f).st = s.st := rfl
@[simp] theorem State.writeResultThenFlag_fb (x : Nibble) (b : Byte) (f : Bool) : (s.writeResultThenFlag x b f).fb = s.fb := rfl
@[simp] theorem State.writeResultThenFlag_mem (x : Nibble) (b : Byte) (f : Bool) : (s.writeResultThenFlag x b f).mem = s.mem := rfl
@[simp] theorem State.writeResultThenFlag_halted (x : Nibble) (b : Byte) (f : Bool) : (s.writeResultThenFlag x b f).halted = s.halted := rfl
@[simp] theorem State.writeResultThenFlag_faultCode (x : Nibble) (b : Byte) (f : Bool) : (s.writeResultThenFlag x b f).faultCode = s.faultCode := rfl
@[simp] theorem State.writeResultThenFlag_faultInstr (x : Nibble) (b : Byte) (f : Bool) : (s.writeResultThenFlag x b f).faultInstr = s.faultInstr := rfl
@[simp] theorem State.writeResultThenFlag_stkOvf (x : Nibble) (b : Byte) (f : Bool) : (s.writeResultThenFlag x b f).stkOvf = s.stkOvf := rfl
@[simp] theorem State.writeResultThenFlag_stkUnf (x : Nibble) (b : Byte) (f : Bool) : (s.writeResultThenFlag x b f).stkUnf = s.stkUnf := rfl
@[simp] theorem State.writeResultThenFlag_boot (x : Nibble) (b : Byte) (f : Bool) : (s.writeResultThenFlag x b f).boot = s.boot := rfl
@[simp] theorem State.writeResultThenFlag_ldPtr (x : Nibble) (b : Byte) (f : Bool) : (s.writeResultThenFlag x b f).ldPtr = s.ldPtr := rfl
@[simp] theorem State.writeResultThenFlag_inputs (x : Nibble) (b : Byte) (f : Bool) : (s.writeResultThenFlag x b f).inputs = s.inputs := rfl
@[simp] theorem State.writeResultThenFlag_steps (x : Nibble) (b : Byte) (f : Bool) : (s.writeResultThenFlag x b f).steps = s.steps := rfl
@[simp] theorem State.memRead_writeResultThenFlag (x : Nibble) (b : Byte) (f : Bool) (e : Nat) : (s.writeResultThenFlag x b f).memRead e = s.memRead e := rfl
@[simp] theorem State.pixel_writeResultThenFlag (x : Nibble) (b : Byte) (f : Bool) (cx : BitVec 6) (cy : BitVec 5) : (s.writeResultThenFlag x b f).pixel cx cy = s.pixel cx cy := rfl
@[simp] theorem State.sample_writeResultThenFlag (x : Nibble) (b : Byte) (f : Bool) : (s.writeResultThenFlag x b f).sample = s.sample := rfl
@[simp] theorem State.key_writeResultThenFlag (x : Nibble) (b : Byte) (f : Bool) : (s.writeResultThenFlag x b f).key = s.key := rfl
@[simp] theorem State.rnd_writeResultThenFlag (x : Nibble) (b : Byte) (f : Bool) : (s.writeResultThenFlag x b f).rnd = s.rnd := rfl

/-! ### `applyReset` -/
@[simp] theorem State.applyReset_v (image : Vector Byte 4096) : (s.applyReset image).v = State.reset.v := rfl
@[simp] theorem State.applyReset_index (image : Vector Byte 4096) : (s.applyReset image).index = State.reset.index := rfl
@[simp] theorem State.applyReset_pc (image : Vector Byte 4096) : (s.applyReset image).pc = State.reset.pc := rfl
@[simp] theorem State.applyReset_stack (image : Vector Byte 4096) : (s.applyReset image).stack = State.reset.stack := rfl
@[simp] theorem State.applyReset_sp (image : Vector Byte 4096) : (s.applyReset image).sp = State.reset.sp := rfl
@[simp] theorem State.applyReset_dt (image : Vector Byte 4096) : (s.applyReset image).dt = State.reset.dt := rfl
@[simp] theorem State.applyReset_st (image : Vector Byte 4096) : (s.applyReset image).st = State.reset.st := rfl
@[simp] theorem State.applyReset_fb (image : Vector Byte 4096) : (s.applyReset image).fb = State.reset.fb := rfl
@[simp] theorem State.applyReset_mem (image : Vector Byte 4096) : (s.applyReset image).mem = Memory.ofImage image := rfl
@[simp] theorem State.applyReset_halted (image : Vector Byte 4096) : (s.applyReset image).halted = State.reset.halted := rfl
@[simp] theorem State.applyReset_faultCode (image : Vector Byte 4096) : (s.applyReset image).faultCode = State.reset.faultCode := rfl
@[simp] theorem State.applyReset_faultInstr (image : Vector Byte 4096) : (s.applyReset image).faultInstr = State.reset.faultInstr := rfl
@[simp] theorem State.applyReset_stkOvf (image : Vector Byte 4096) : (s.applyReset image).stkOvf = State.reset.stkOvf := rfl
@[simp] theorem State.applyReset_stkUnf (image : Vector Byte 4096) : (s.applyReset image).stkUnf = State.reset.stkUnf := rfl
@[simp] theorem State.applyReset_boot (image : Vector Byte 4096) : (s.applyReset image).boot = State.reset.boot := rfl
@[simp] theorem State.applyReset_ldPtr (image : Vector Byte 4096) : (s.applyReset image).ldPtr = State.reset.ldPtr := rfl
@[simp] theorem State.applyReset_inputs (image : Vector Byte 4096) : (s.applyReset image).inputs = s.inputs := rfl
@[simp] theorem State.applyReset_steps (image : Vector Byte 4096) : (s.applyReset image).steps = s.steps := rfl
@[simp] theorem State.sample_applyReset (image : Vector Byte 4096) : (s.applyReset image).sample = s.sample := rfl
@[simp] theorem State.key_applyReset (image : Vector Byte 4096) : (s.applyReset image).key = s.key := rfl
@[simp] theorem State.rnd_applyReset (image : Vector Byte 4096) : (s.applyReset image).rnd = s.rnd := rfl

/-! ### `loadByte` -/
@[simp] theorem State.loadByte_v (b : Byte) : (s.loadByte b).v = s.v := rfl
@[simp] theorem State.loadByte_index (b : Byte) : (s.loadByte b).index = s.index := rfl
@[simp] theorem State.loadByte_pc (b : Byte) : (s.loadByte b).pc = s.pc := rfl
@[simp] theorem State.loadByte_stack (b : Byte) : (s.loadByte b).stack = s.stack := rfl
@[simp] theorem State.loadByte_sp (b : Byte) : (s.loadByte b).sp = s.sp := rfl
@[simp] theorem State.loadByte_dt (b : Byte) : (s.loadByte b).dt = s.dt := rfl
@[simp] theorem State.loadByte_st (b : Byte) : (s.loadByte b).st = s.st := rfl
@[simp] theorem State.loadByte_fb (b : Byte) : (s.loadByte b).fb = s.fb := rfl
@[simp] theorem State.loadByte_mem (b : Byte) : (s.loadByte b).mem = Memory.store s.mem (wrapAddr s.ldPtr.toNat) b := rfl
@[simp] theorem State.loadByte_halted (b : Byte) : (s.loadByte b).halted = s.halted := rfl
@[simp] theorem State.loadByte_faultCode (b : Byte) : (s.loadByte b).faultCode = s.faultCode := rfl
@[simp] theorem State.loadByte_faultInstr (b : Byte) : (s.loadByte b).faultInstr = s.faultInstr := rfl
@[simp] theorem State.loadByte_stkOvf (b : Byte) : (s.loadByte b).stkOvf = s.stkOvf := rfl
@[simp] theorem State.loadByte_stkUnf (b : Byte) : (s.loadByte b).stkUnf = s.stkUnf := rfl
@[simp] theorem State.loadByte_boot (b : Byte) : (s.loadByte b).boot = s.boot := rfl
@[simp] theorem State.loadByte_ldPtr (b : Byte) : (s.loadByte b).ldPtr = s.ldPtr + 1#12 := rfl
@[simp] theorem State.loadByte_inputs (b : Byte) : (s.loadByte b).inputs = s.inputs := rfl
@[simp] theorem State.loadByte_steps (b : Byte) : (s.loadByte b).steps = s.steps := rfl
@[simp] theorem State.readV_loadByte (b : Byte) (r : Nibble) : (s.loadByte b).readV r = s.readV r := rfl
@[simp] theorem State.pixel_loadByte (b : Byte) (cx : BitVec 6) (cy : BitVec 5) : (s.loadByte b).pixel cx cy = s.pixel cx cy := rfl
@[simp] theorem State.sample_loadByte (b : Byte) : (s.loadByte b).sample = s.sample := rfl
@[simp] theorem State.key_loadByte (b : Byte) : (s.loadByte b).key = s.key := rfl
@[simp] theorem State.rnd_loadByte (b : Byte) : (s.loadByte b).rnd = s.rnd := rfl

/-! ### The operand address -/

@[simp] theorem State.effAddr_timerTick (offset : Nat) : s.timerTick.effAddr offset = s.effAddr offset := rfl

end Sys2Proof.Machine
end

