-- ==== Sys2Proof/Laws/Memory.lean ====
section
/-! SUPPORT. The memory operations: a read after a write, the frame of a write, and the canonical form
(spec/20_memory.md R51 to R53). -/

namespace Sys2Proof.Machine

theorem wrapAddr_lt (a : Nat) : wrapAddr a < 4096 := Nat.mod_lt _ (by decide)

theorem wrapAddr_of_lt {a : Nat} (h : a < 4096) : wrapAddr a = a := Nat.mod_eq_of_lt h

@[simp] theorem wrapAddr_wrapAddr (a : Nat) : wrapAddr (wrapAddr a) = wrapAddr a := wrapAddr_of_lt (wrapAddr_lt a)

/-! ### Reading what was stored -/

theorem Memory.lookup_place (m : Memory) (a e : Nat) (b : Byte) (hm : ∀ c ∈ m, c.1 ≠ a) :
    Memory.lookup (Memory.place m a b) e = if a = e then b else Memory.lookup m e := by
  induction m with
  | nil => simp [Memory.place, Memory.lookup]
  | cons c rest ih =>
    obtain ⟨k, d⟩ := c
    have hk : k ≠ a := hm (k, d) (by simp)
    have ih := ih (fun c hc => hm c (by simp [hc]))
    by_cases h : a < k
    · simp [Memory.place, Memory.lookup, h]
    · simp only [Memory.place, h, if_false, Memory.lookup, ih]
      by_cases hke : k = e
      · subst hke
        simp [Ne.symm hk]
      · simp [hke]

theorem Memory.lookup_filter (m : Memory) (a e : Nat) (h : a ≠ e) :
    Memory.lookup (m.filter (fun c => decide (c.1 ≠ a))) e = Memory.lookup m e := by
  induction m with
  | nil => rfl
  | cons c rest ih =>
    obtain ⟨k, d⟩ := c
    by_cases hk : k = a
    · subst hk
      simpa [Memory.lookup, h] using ih
    · simp only [List.filter, ne_eq, hk, not_false_eq_true, decide_true, Memory.lookup]
      simp only [ne_eq] at ih
      rw [ih]

theorem Memory.lookup_of_absent (m : Memory) (a : Nat) (h : ∀ c ∈ m, c.1 ≠ a) :
    Memory.lookup m a = Config.memInit a := by
  induction m with
  | nil => rfl
  | cons c rest ih =>
    obtain ⟨k, d⟩ := c
    have hk : k ≠ a := h (k, d) (by simp)
    simp only [Memory.lookup, hk, if_false]
    exact ih (fun c hc => h c (by simp [hc]))

/-- A stored byte reads back, and every other address reads as before. -/
theorem Memory.lookup_store (m : Memory) (a e : Nat) (b : Byte) :
    Memory.lookup (Memory.store m a b) e = if a = e then b else Memory.lookup m e := by
  have habs : ∀ c ∈ m.filter (fun c => decide (c.1 ≠ a)), c.1 ≠ a := by
    intro c hc
    simpa using (List.mem_filter.mp hc).2
  unfold Memory.store
  by_cases hb : b = Config.memInit a
  · simp only [hb, if_true]
    by_cases hae : a = e
    · subst hae
      rw [if_pos rfl, Memory.lookup_of_absent _ _ habs]
    · rw [if_neg hae, Memory.lookup_filter m a e hae]
  · simp only [hb, if_false]
    rw [Memory.lookup_place _ _ _ _ habs]
    by_cases hae : a = e
    · simp [hae]
    · rw [if_neg hae, if_neg hae, Memory.lookup_filter m a e hae]

/-- What `MemWrite` does to every later byte read (R51, R52). -/
theorem State.memRead_memWrite (s : State) (a e : Nat) (b : Byte) :
    (s.memWrite a b).memRead e = if wrapAddr a = wrapAddr e then b else s.memRead e := by
  simp only [State.memRead, State.memWrite_mem, Memory.lookup_store]

/-! ### The canonical form -/

theorem Memory.wf_cons_iff (k : Nat) (b : Byte) (m : Memory) :
    Memory.wf ((k, b) :: m) = true ↔
      k < 4096 ∧ b ≠ Config.memInit k ∧ (∀ c ∈ m, k < c.1) ∧ Memory.wf m = true := by
  simp only [Memory.wf, Bool.and_eq_true, decide_eq_true_eq, List.all_eq_true]
  tauto

theorem Memory.mem_place (m : Memory) (a : Nat) (b : Byte) (c : Host.Cell) :
    c ∈ Memory.place m a b ↔ c = (a, b) ∨ c ∈ m := by
  induction m with
  | nil => simp [Memory.place]
  | cons d rest ih =>
    obtain ⟨k, e⟩ := d
    by_cases h : a < k
    · simp [Memory.place, h]
    · simp only [Memory.place, h, if_false, List.mem_cons, ih]
      tauto

theorem Memory.wf_place (m : Memory) (a : Nat) (b : Byte) (hm : Memory.wf m = true) (ha : a < 4096)
    (hb : b ≠ Config.memInit a) (habs : ∀ c ∈ m, c.1 ≠ a) : Memory.wf (Memory.place m a b) = true := by
  induction m with
  | nil => simp [Memory.place, Memory.wf, ha, hb]
  | cons d rest ih =>
    obtain ⟨k, e⟩ := d
    obtain ⟨hk, he, hrest, hwf⟩ := (Memory.wf_cons_iff k e rest).mp hm
    have hka : k ≠ a := habs (k, e) (by simp)
    by_cases h : a < k
    · simp only [Memory.place, h, if_true]
      refine (Memory.wf_cons_iff _ _ _).mpr ⟨ha, hb, ?_, hm⟩
      intro c hc
      rcases List.mem_cons.mp hc with rfl | hc
      · exact h
      · exact Nat.lt_trans h (hrest c hc)
    · simp only [Memory.place, h, if_false]
      refine (Memory.wf_cons_iff _ _ _).mpr ⟨hk, he, ?_, ih hwf (fun c hc => habs c (by simp [hc]))⟩
      intro c hc
      rcases (Memory.mem_place rest a b c).mp hc with rfl | hc
      · show k < a
        omega
      · exact hrest c hc

theorem Memory.wf_filter (m : Memory) (p : Host.Cell → Bool) (hm : Memory.wf m = true) :
    Memory.wf (m.filter p) = true := by
  induction m with
  | nil => rfl
  | cons d rest ih =>
    obtain ⟨k, e⟩ := d
    obtain ⟨hk, he, hrest, hwf⟩ := (Memory.wf_cons_iff k e rest).mp hm
    by_cases hp : p (k, e) = true
    · rw [List.filter_cons_of_pos hp]
      exact (Memory.wf_cons_iff _ _ _).mpr
        ⟨hk, he, fun c hc => hrest c (List.mem_filter.mp hc).1, ih hwf⟩
    · rw [List.filter_cons_of_neg hp]
      exact ih hwf

/-- Every store keeps the canonical form. -/
theorem Memory.wf_store (m : Memory) (a : Nat) (b : Byte) (hm : Memory.wf m = true) (ha : a < 4096) :
    Memory.wf (Memory.store m a b) = true := by
  unfold Memory.store
  by_cases hb : b = Config.memInit a
  · simp only [hb, if_true]
    exact Memory.wf_filter m _ hm
  · simp only [hb, if_false]
    exact Memory.wf_place _ a b (Memory.wf_filter m _ hm) ha hb (fun c hc => by simpa using (List.mem_filter.mp hc).2)

/-- `MemWrite` keeps the canonical form. -/
theorem State.memWrite_wf (s : State) (a : Nat) (b : Byte) (h : Memory.wf s.mem = true) :
    Memory.wf (s.memWrite a b).mem = true := Memory.wf_store _ _ _ h (wrapAddr_lt a)

theorem State.reset_memory_wf : Memory.wf State.reset.mem = true := rfl

/-! ### Blocks of bytes -/

/-- A block write changes the memory alone. -/
theorem State.memWriteBlock_eq (s : State) (addr : Nat) (f : Nat → Byte) (n : Nat) :
    s.memWriteBlock addr f n = { s with mem := (s.memWriteBlock addr f n).mem } := by
  induction n with
  | zero => rfl
  | succ n ih =>
    rw [State.memWriteBlock, ih]
    rfl

/-- A block write keeps the canonical form. -/
theorem State.memWriteBlock_wf (s : State) (addr : Nat) (f : Nat → Byte) (n : Nat) (h : Memory.wf s.mem = true) :
    Memory.wf (s.memWriteBlock addr f n).mem = true := by
  induction n with
  | zero => exact h
  | succ n ih => exact State.memWrite_wf _ _ _ ih

/-- Outside the block's addresses a block write leaves every byte alone. -/
theorem State.memRead_memWriteBlock_frame (s : State) (addr : Nat) (f : Nat → Byte) (n e : Nat)
    (h : ∀ i < n, wrapAddr (addr + i) ≠ wrapAddr e) : (s.memWriteBlock addr f n).memRead e = s.memRead e := by
  induction n with
  | zero => rfl
  | succ n ih =>
    rw [State.memWriteBlock, State.memRead_memWrite, if_neg (h n (Nat.lt_succ_self n))]
    exact ih (fun i hi => h i (Nat.lt_succ_of_lt hi))

/-- A byte of the block reads back, where the block is not longer than the memory. -/
theorem State.memRead_memWriteBlock (s : State) (addr : Nat) (f : Nat → Byte) (n i : Nat) (hi : i < n)
    (hn : n ≤ 4096) : (s.memWriteBlock addr f n).memRead (addr + i) = f i := by
  induction n with
  | zero => omega
  | succ n ih =>
    rw [State.memWriteBlock, State.memRead_memWrite]
    by_cases h : i = n
    · simp [h]
    · have hne : wrapAddr (addr + n) ≠ wrapAddr (addr + i) := by
        simp only [wrapAddr, Config.memSize]
        omega
      rw [if_neg hne]
      exact ih (by omega) (by omega)

/-! ### `MEM_INIT` images (R6, R40) -/

theorem Memory.ofImage_wf (image : Vector Byte 4096) : Memory.wf (Memory.ofImage image) = true :=
  State.memWriteBlock_wf _ _ _ _ State.reset_memory_wf

/-- A reset memory reads as its image, every address wrapping (R40, R51). -/
theorem State.memRead_resetWith (image : Vector Byte 4096) (a : Nat) :
    (State.resetWith image).memRead a = image[a % 4096]'(Nat.mod_lt _ (by decide)) := by
  have ha : a % 4096 < 4096 := Nat.mod_lt _ (by decide)
  have h := State.memRead_memWriteBlock State.reset 0 (fun b => image[b]?.getD 0) 4096 (a % 4096) ha (Nat.le_refl _)
  rw [Nat.zero_add, State.memRead, wrapAddr_of_lt ha] at h
  have hi : image[a % 4096]?.getD 0 = image[a % 4096] := by simp [ha]
  exact h.trans hi

/-- Storing zeros in an empty memory leaves it empty. -/
theorem State.memWriteBlock_zeros (s : State) (addr n : Nat) (f : Nat → Byte) (hs : s.mem = [])
    (hf : ∀ i < n, f i = 0#8) : (s.memWriteBlock addr f n).mem = [] := by
  induction n with
  | zero => exact hs
  | succ n ih =>
    have h := ih (fun i hi => hf i (Nat.lt_succ_of_lt hi))
    rw [State.memWriteBlock, State.memWrite_mem, h, hf n (Nat.lt_succ_self n)]
    rfl

/-- The default image, all zero, gives the reset state of the model (R6, R40). -/
theorem State.resetWith_zero : State.resetWith (Vector.replicate 4096 0#8) = State.reset := by
  have h : Memory.ofImage (Vector.replicate 4096 0#8) = [] :=
    State.memWriteBlock_zeros State.reset 0 4096 _ rfl (fun i hi => by simp [hi])
  rw [State.resetWith, h]
  rfl

end Sys2Proof.Machine
end

