-- ==== Sys2Proof/Laws/Ops.lean ====
section
/-! SUPPORT. What each shared operation over registers, stack, frame buffer, timers and `pc` can do, said once. -/

namespace Sys2Proof.Machine

/-! ### Registers -/

/-- A written register reads back and every other register reads as before (R20). -/
theorem State.readV_writeV (s : State) (x r : Nibble) (b : Byte) :
    (s.writeV x b).readV r = if r = x then b else s.readV r := by
  simp only [State.readV, State.writeV, Vector.getElem_set]
  by_cases h : r = x
  · simp [h]
  · rw [if_neg h, if_neg (fun e => h (BitVec.eq_of_toNat_eq e.symm))]

@[simp] theorem State.readV_writeV_same (s : State) (x : Nibble) (b : Byte) : (s.writeV x b).readV x = b := by
  simp [State.readV_writeV]

theorem State.readV_writeV_other (s : State) (x r : Nibble) (b : Byte) (h : r ≠ x) :
    (s.writeV x b).readV r = s.readV r := by
  simp [State.readV_writeV, h]

/-- The flag is written last, so it wins where the result goes to `VF` too (R171). -/
theorem State.readV_writeResultThenFlag (s : State) (x r : Nibble) (b : Byte) (f : Bool) :
    (s.writeResultThenFlag x b f).readV r =
      if r = flagReg then flagByte f else if r = x then b else s.readV r := by
  simp only [State.writeResultThenFlag, State.readV_writeV]

/-- Writing a result and its flag changes the registers alone. -/
theorem State.writeResultThenFlag_eq (s : State) (x : Nibble) (b : Byte) (f : Bool) :
    s.writeResultThenFlag x b f = { s with v := (s.writeResultThenFlag x b f).v } := rfl

theorem flagByte_toNat (b : Bool) : (flagByte b).toNat = if b then 1 else 0 := by
  cases b <;> rfl

/-- A block load changes the registers alone. -/
theorem State.loadRegs_eq (s : State) (n : Nat) : s.loadRegs n = { s with v := (s.loadRegs n).v } := by
  induction n with
  | zero => rfl
  | succ n ih =>
    rw [State.loadRegs, ih]
    rfl

theorem regOfNat_toNat (r : Nibble) : regOfNat r.toNat = r := by
  simp [regOfNat]

theorem regOfNat_eq_iff (r : Nibble) {n : Nat} (hn : n < 16) : r = regOfNat n ↔ r.toNat = n := by
  constructor
  · rintro rfl
    simp [regOfNat, Nat.mod_eq_of_lt hn]
  · rintro rfl
    exact (regOfNat_toNat r).symm

/-- A block load of the first `n` registers: each reads the byte at its own offset, the others keep their values
(R144). -/
theorem State.readV_loadRegs (s : State) (n : Nat) (hn : n ≤ 16) (r : Nibble) :
    (s.loadRegs n).readV r = if r.toNat < n then s.memRead (s.effAddr r.toNat) else s.readV r := by
  induction n with
  | zero => simp [State.loadRegs]
  | succ n ih =>
    rw [State.loadRegs, State.readV_writeV, ih (by omega)]
    by_cases h : r = regOfNat n
    · have hr : r.toNat = n := (regOfNat_eq_iff r (by omega)).mp h
      simp [h.symm, hr]
    · have hr : r.toNat ≠ n := fun e => h ((regOfNat_eq_iff r (by omega)).mpr e)
      have hiff : r.toNat < n + 1 ↔ r.toNat < n := by omega
      simp only [h, if_false, hiff]

/-! ### Stack -/

/-- A push succeeds exactly when fewer than twelve entries are live (R26). -/
theorem State.push_of_lt (s : State) (w : Word) (h : s.sp.val < 12) :
    s.push w = some { s with stack := s.stack.set s.sp.val w h, sp := ⟨s.sp.val + 1, Nat.succ_lt_succ h⟩ } := by
  simp [State.push, h]

theorem State.push_of_full (s : State) (w : Word) (h : s.sp.val = 12) : s.push w = none := by
  simp [State.push, h]

/-- A push has failed on a full stack or has written one entry and the pointer (R26). -/
theorem State.push_cases (s : State) (w : Word) :
    (s.sp.val = 12 ∧ s.push w = none) ∨
      ∃ h : s.sp.val < 12,
        s.push w = some { s with stack := s.stack.set s.sp.val w h, sp := ⟨s.sp.val + 1, Nat.succ_lt_succ h⟩ } := by
  by_cases h : s.sp.val < 12
  · exact Or.inr ⟨h, s.push_of_lt w h⟩
  · have h12 : s.sp.val = 12 := by omega
    exact Or.inl ⟨h12, s.push_of_full w h12⟩

/-- A pop succeeds exactly when an entry is live (R27). -/
theorem State.pop_of_pos (s : State) (h : 0 < s.sp.val) :
    s.pop = some (s.stack[s.sp.val - 1]'(by omega), { s with sp := ⟨s.sp.val - 1, by omega⟩ }) := by
  simp [State.pop, h]

theorem State.pop_of_empty (s : State) (h : s.sp.val = 0) : s.pop = none := by
  simp [State.pop, h]

/-- A pop has failed on an empty stack or has answered the top entry and lowered the pointer (R27). -/
theorem State.pop_cases (s : State) :
    (s.sp.val = 0 ∧ s.pop = none) ∨
      ∃ h : 0 < s.sp.val,
        s.pop = some (s.stack[s.sp.val - 1]'(by omega), { s with sp := ⟨s.sp.val - 1, by omega⟩ }) := by
  by_cases h : 0 < s.sp.val
  · exact Or.inr ⟨h, s.pop_of_pos h⟩
  · have h0 : s.sp.val = 0 := by omega
    exact Or.inl ⟨h0, s.pop_of_empty h0⟩

/-! ### Frame buffer -/

/-- A written cell reads back and every other cell reads as before (R31). -/
theorem fbGet_fbSet (fb : FrameBuffer) (cx cx' : BitVec 6) (cy cy' : BitVec 5) (b : Bool) :
    fbGet (fbSet fb cx cy b) cx' cy' = if cx' = cx ∧ cy' = cy then b else fbGet fb cx' cy' := by
  by_cases hy : cy' = cy
  · subst hy
    by_cases hx : cx' = cx
    · subst hx
      simp [fbGet, fbSet]
    · have h : cx.toNat ≠ cx'.toNat := fun e => hx (BitVec.eq_of_toNat_eq e.symm)
      simp [fbGet, fbSet, h, hx]
  · have h : cy.toNat ≠ cy'.toNat := fun e => hy (BitVec.eq_of_toNat_eq e.symm)
    simp [fbGet, fbSet, h, hy]

@[simp] theorem fbGet_fbClear (cx : BitVec 6) (cy : BitVec 5) : fbGet fbClear cx cy = false := by
  simp [fbGet, fbClear]

@[simp] theorem State.pixel_setFb (s : State) (g : FrameBuffer) (cx : BitVec 6) (cy : BitVec 5) :
    (s.setFb g).pixel cx cy = fbGet g cx cy := rfl

/-- A toggle flips its cell, leaves the others alone and reports the old value (R180). -/
theorem fbGet_togglePixel (fb : FrameBuffer) (cx cx' : BitVec 6) (cy cy' : BitVec 5) :
    fbGet (togglePixel fb cx cy).1 cx' cy' = if cx' = cx ∧ cy' = cy then !fbGet fb cx cy else fbGet fb cx' cy' := by
  simp only [togglePixel, fbGet_fbSet]

@[simp] theorem togglePixel_collision (fb : FrameBuffer) (cx : BitVec 6) (cy : BitVec 5) :
    (togglePixel fb cx cy).2 = fbGet fb cx cy := rfl

/-! ### Timers and `pc` -/

/-- One decrement, floored at zero (R103). -/
theorem tickDown_toNat (b : Byte) : (tickDown b).toNat = b.toNat - 1 := by
  unfold tickDown
  by_cases h : b = 0#8
  · simp [h]
  · have hb : b.toNat ≠ 0 := fun e => h (BitVec.eq_of_toNat_eq e)
    have hlt := b.isLt
    simp only [h, if_false, BitVec.toNat_sub]
    have h1 : (1#8).toNat = 1 := rfl
    rw [h1]
    omega

/-- The committed `pc` is `next` modulo 4096 (R105). -/
theorem wrapPc_toNat (w : Word) : (wrapPc w).toNat = w.toNat % 4096 := by
  simp only [wrapPc, Config.memSize, BitVec.toNat_ofNat]
  omega

theorem wrapPc_lt (w : Word) : (wrapPc w).toNat < 4096 := by
  rw [wrapPc_toNat]
  exact Nat.mod_lt _ (by decide)

/-- Sixteen-bit overflow of a sum does not change what is committed (R110). -/
theorem wrapPc_add_toNat (w : Word) (k : Nat) :
    (wrapPc (w + BitVec.ofNat 16 k)).toNat = (w.toNat + k) % 4096 := by
  rw [wrapPc_toNat, BitVec.toNat_add, BitVec.toNat_ofNat]
  omega

/-! ### Operands -/

@[simp] theorem addrWord_toNat (nnn : Addr) : (addrWord nnn).toNat = nnn.toNat := by
  have := nnn.isLt
  simp only [addrWord, BitVec.toNat_setWidth]
  omega

@[simp] theorem byteWord_toNat (b : Byte) : (byteWord b).toNat = b.toNat := by
  have := b.isLt
  simp only [byteWord, BitVec.toNat_setWidth]
  omega

@[simp] theorem keyByte_toNat (k : Nibble) : (keyByte k).toNat = k.toNat := by
  have := k.isLt
  simp only [keyByte, BitVec.toNat_setWidth]
  omega

/-- The product of LD F,Vx fits in 16 bits (R146). -/
theorem glyphAddr_toNat (b : Byte) : (glyphAddr b).toNat = b.toNat * 5 := by
  have := b.isLt
  simp only [glyphAddr, BitVec.toNat_mul, byteWord_toNat, BitVec.toNat_ofNat, Config.glyphStride]
  omega

theorem pixelColumn_toNat (px : Byte) (c : Nat) : (pixelColumn px c).toNat = (px.toNat + c) % 64 := by
  simp only [pixelColumn, BitVec.toNat_ofNat]
  omega

theorem pixelRow_toNat (py : Byte) (r : Nat) : (pixelRow py r).toNat = (py.toNat + r) % 32 := by
  simp only [pixelRow, BitVec.toNat_ofNat]
  omega

end Sys2Proof.Machine
end

