-- ==== Sys2Proof/Laws/Draw.lean ====
section
/-! SUPPORT. What drawing a sprite does: the exclusive OR of its set bits onto the buffer, and a collision exactly
when one of them falls on a cell that was on (spec/45_draw.md R182, R184). -/

namespace Sys2Proof.Machine

/-- The cell a sprite bit falls on: its column and row (R181). -/
abbrev FbCell := BitVec 6 × BitVec 5

/-- Toggling one cell while collisions are gathered. -/
def toggleCell (acc : FrameBuffer × Bool) (c : FbCell) : FrameBuffer × Bool :=
  ((togglePixel acc.1 c.1 c.2).1, acc.2 || (togglePixel acc.1 c.1 c.2).2)

/-- The cells of the set bits of one sprite row. -/
def rowCells (px py row : Byte) (r : Nat) : List FbCell :=
  ((List.range 8).filter (spriteBit row)).map (fun c => (pixelColumn px c, pixelRow py r))

/-- The cells of the set bits of a sprite of `n` rows. -/
def spriteCells (px py : Byte) (rowAt : Nat → Byte) (n : Nat) : List FbCell :=
  (List.range n).flatMap (fun r => rowCells px py (rowAt r) r)

theorem drawBit_eq (px py row : Byte) (r c : Nat) (acc : FrameBuffer × Bool) :
    drawBit px py row r acc c =
      if spriteBit row c then toggleCell acc (pixelColumn px c, pixelRow py r) else acc := rfl

/-- A row is drawn by toggling the cells of its set bits. -/
theorem drawRow_eq (px py row : Byte) (r : Nat) (acc : FrameBuffer × Bool) :
    drawRow px py row r acc = (rowCells px py row r).foldl toggleCell acc := by
  rw [rowCells, List.foldl_map, List.foldl_filter]
  rfl

/-- A sprite is drawn by toggling the cells of its set bits. -/
theorem drawSprite_eq (px py : Byte) (rowAt : Nat → Byte) (n : Nat) (fb : FrameBuffer) :
    drawSprite px py rowAt n fb = (spriteCells px py rowAt n).foldl toggleCell (fb, false) := by
  simp only [drawSprite, spriteCells, List.foldl_flatMap, drawRow_eq]

theorem mem_rowCells (px py row : Byte) (r : Nat) (c : FbCell) :
    c ∈ rowCells px py row r ↔ ∃ k, k < 8 ∧ spriteBit row k = true ∧ c = (pixelColumn px k, pixelRow py r) := by
  simp only [rowCells, List.mem_map, List.mem_filter, List.mem_range]
  constructor
  · rintro ⟨k, ⟨hk, hb⟩, rfl⟩
    exact ⟨k, hk, hb, rfl⟩
  · rintro ⟨k, hk, hb, rfl⟩
    exact ⟨k, ⟨hk, hb⟩, rfl⟩

theorem mem_spriteCells (px py : Byte) (rowAt : Nat → Byte) (n : Nat) (c : FbCell) :
    c ∈ spriteCells px py rowAt n ↔
      ∃ r k, r < n ∧ k < 8 ∧ spriteBit (rowAt r) k = true ∧ c = (pixelColumn px k, pixelRow py r) := by
  simp only [spriteCells, List.mem_flatMap, List.mem_range, mem_rowCells]
  constructor
  · rintro ⟨r, hr, k, hk, hb, h⟩
    exact ⟨r, k, hr, hk, hb, h⟩
  · rintro ⟨r, k, hr, hk, hb, h⟩
    exact ⟨r, hr, k, hk, hb, h⟩

theorem pixelColumn_injective (px : Byte) {c d : Nat} (hc : c < 8) (hd : d < 8)
    (h : pixelColumn px c = pixelColumn px d) : c = d := by
  have h := congrArg BitVec.toNat h
  rw [pixelColumn_toNat, pixelColumn_toNat] at h
  omega

theorem pixelRow_injective (py : Byte) {r q : Nat} (hr : r < 32) (hq : q < 32)
    (h : pixelRow py r = pixelRow py q) : r = q := by
  have h := congrArg BitVec.toNat h
  rw [pixelRow_toNat, pixelRow_toNat] at h
  omega

/-- Within one row no cell is toggled twice (R184 (c)). -/
theorem rowCells_nodup (px py row : Byte) (r : Nat) : (rowCells px py row r).Nodup := by
  refine List.Nodup.map_on ?_ (List.nodup_range.filter _)
  intro c hc d hd h
  have hc : c < 8 := List.mem_range.mp (List.mem_filter.mp hc).1
  have hd : d < 8 := List.mem_range.mp (List.mem_filter.mp hd).1
  exact pixelColumn_injective px hc hd (congrArg Prod.fst h)

/-- Within one drawing of at most 32 rows no cell is toggled twice (R184 (c)). -/
theorem spriteCells_nodup (px py : Byte) (rowAt : Nat → Byte) (n : Nat) (hn : n ≤ 32) :
    (spriteCells px py rowAt n).Nodup := by
  induction n with
  | zero => simp [spriteCells]
  | succ n ih =>
    have hsplit : spriteCells px py rowAt (n + 1) = spriteCells px py rowAt n ++ rowCells px py (rowAt n) n := by
      simp [spriteCells, List.range_succ, List.flatMap_append]
    rw [hsplit, List.nodup_append]
    refine ⟨ih (by omega), rowCells_nodup _ _ _ _, ?_⟩
    rintro c hc d hd rfl
    obtain ⟨r, k, hr, -, -, h⟩ := (mem_spriteCells px py rowAt n c).mp hc
    obtain ⟨k', -, -, h'⟩ := (mem_rowCells px py (rowAt n) n c).mp hd
    have hrow : pixelRow py r = pixelRow py n := congrArg Prod.snd (h.symm.trans h')
    have := pixelRow_injective py (by omega) (by omega) hrow
    omega

/-- Toggling distinct cells one after another: each is flipped once, and the collisions are tests of the old values. -/
theorem foldl_toggleCell (cells : List FbCell) (hnd : cells.Nodup) (fb : FrameBuffer) (hit : Bool) :
    (∀ cx cy, fbGet (cells.foldl toggleCell (fb, hit)).1 cx cy =
      if (cx, cy) ∈ cells then !fbGet fb cx cy else fbGet fb cx cy) ∧
    (cells.foldl toggleCell (fb, hit)).2 = (hit || cells.any (fun c => fbGet fb c.1 c.2)) := by
  induction cells generalizing fb hit with
  | nil => simp
  | cons c rest ih =>
    obtain ⟨hc, hrest⟩ := List.nodup_cons.mp hnd
    obtain ⟨ihPixel, ihHit⟩ := ih hrest (togglePixel fb c.1 c.2).1 (hit || fbGet fb c.1 c.2)
    have hother : ∀ d ∈ rest, fbGet (togglePixel fb c.1 c.2).1 d.1 d.2 = fbGet fb d.1 d.2 := by
      intro d hd
      rw [fbGet_togglePixel, if_neg]
      rintro ⟨h1, h2⟩
      exact hc (by rwa [Prod.ext h1 h2] at hd)
    constructor
    · intro cx cy
      have := ihPixel cx cy
      simp only [List.foldl_cons, toggleCell, togglePixel_collision] at this ⊢
      rw [this, fbGet_togglePixel]
      by_cases hcell : cx = c.1 ∧ cy = c.2
      · have : (cx, cy) = c := Prod.ext hcell.1 hcell.2
        simp [hc, hcell]
      · have : (cx, cy) ≠ c := fun e => hcell ⟨congrArg Prod.fst e, congrArg Prod.snd e⟩
        simp [this, hcell]
    · simp only [List.foldl_cons, toggleCell, togglePixel_collision] at ihHit ⊢
      rw [ihHit, List.any_cons, Bool.or_assoc]
      congr 2
      rw [Bool.eq_iff_iff, List.any_eq_true, List.any_eq_true]
      constructor
      · rintro ⟨d, hd, h⟩
        exact ⟨d, hd, by rwa [hother d hd] at h⟩
      · rintro ⟨d, hd, h⟩
        exact ⟨d, hd, by rwa [hother d hd]⟩

/-- The buffer after a sprite is drawn (R182): exactly the cells of its set bits are flipped. -/
theorem fbGet_drawSprite (px py : Byte) (rowAt : Nat → Byte) (n : Nat) (hn : n ≤ 32) (fb : FrameBuffer)
    (cx : BitVec 6) (cy : BitVec 5) :
    fbGet (drawSprite px py rowAt n fb).1 cx cy =
      if (cx, cy) ∈ spriteCells px py rowAt n then !fbGet fb cx cy else fbGet fb cx cy := by
  rw [drawSprite_eq]
  exact (foldl_toggleCell _ (spriteCells_nodup px py rowAt n hn) fb false).1 cx cy

/-- The collision flag of a sprite (R182): one of its set bits falls on a cell that was on. -/
theorem drawSprite_collision (px py : Byte) (rowAt : Nat → Byte) (n : Nat) (hn : n ≤ 32) (fb : FrameBuffer) :
    (drawSprite px py rowAt n fb).2 = (spriteCells px py rowAt n).any (fun c => fbGet fb c.1 c.2) := by
  rw [drawSprite_eq, (foldl_toggleCell _ (spriteCells_nodup px py rowAt n hn) fb false).2, Bool.false_or]

end Sys2Proof.Machine
end

