-- ==== Sys2Proof/Laws/PerInstr.lean ====
section
/-! SUPPORT. Statements about every instruction, made per constructor: the encoder agrees with the opcode table, in
that the bits a row's mask fixes have the row's match value (spec/30_encoding.md R87). -/

namespace Sys2Proof.Laws.TableRow

/-- The fixed bits of the instruction's word are those of its row of the opcode table. -/
def Statement (i : Instr) : Prop := encode i &&& tableMask i = tableMatch i

theorem cls : Statement (.cls) := rfl

theorem ret : Statement (.ret) := rfl

theorem sys (nnn : Addr) : Statement (.sys nnn) := (formatA_mask _ _).trans rfl

theorem jp (nnn : Addr) : Statement (.jp nnn) := (formatA_mask _ _).trans rfl

theorem call (nnn : Addr) : Statement (.call nnn) := (formatA_mask _ _).trans rfl

theorem seImm (x : Nibble) (kk : Byte) : Statement (.seImm x kk) := (formatXK_mask_op _ _ _).trans rfl

theorem sneImm (x : Nibble) (kk : Byte) : Statement (.sneImm x kk) := (formatXK_mask_op _ _ _).trans rfl

theorem seReg (x : Nibble) (y : Nibble) : Statement (.seReg x y) := (formatXYN_mask_op_n _ _ _ _).trans rfl

theorem ldImm (x : Nibble) (kk : Byte) : Statement (.ldImm x kk) := (formatXK_mask_op _ _ _).trans rfl

theorem addImm (x : Nibble) (kk : Byte) : Statement (.addImm x kk) := (formatXK_mask_op _ _ _).trans rfl

theorem ldReg (x : Nibble) (y : Nibble) : Statement (.ldReg x y) := (formatXYN_mask_op_n _ _ _ _).trans rfl

theorem orReg (x : Nibble) (y : Nibble) : Statement (.orReg x y) := (formatXYN_mask_op_n _ _ _ _).trans rfl

theorem andReg (x : Nibble) (y : Nibble) : Statement (.andReg x y) := (formatXYN_mask_op_n _ _ _ _).trans rfl

theorem xorReg (x : Nibble) (y : Nibble) : Statement (.xorReg x y) := (formatXYN_mask_op_n _ _ _ _).trans rfl

theorem addReg (x : Nibble) (y : Nibble) : Statement (.addReg x y) := (formatXYN_mask_op_n _ _ _ _).trans rfl

theorem subReg (x : Nibble) (y : Nibble) : Statement (.subReg x y) := (formatXYN_mask_op_n _ _ _ _).trans rfl

theorem shr (x : Nibble) (y : Nibble) : Statement (.shr x y) := (formatXYN_mask_op_n _ _ _ _).trans rfl

theorem subnReg (x : Nibble) (y : Nibble) : Statement (.subnReg x y) := (formatXYN_mask_op_n _ _ _ _).trans rfl

theorem shl (x : Nibble) (y : Nibble) : Statement (.shl x y) := (formatXYN_mask_op_n _ _ _ _).trans rfl

theorem sneReg (x : Nibble) (y : Nibble) : Statement (.sneReg x y) := (formatXYN_mask_op_n _ _ _ _).trans rfl

theorem ldI (nnn : Addr) : Statement (.ldI nnn) := (formatA_mask _ _).trans rfl

theorem jpV0 (nnn : Addr) : Statement (.jpV0 nnn) := (formatA_mask _ _).trans rfl

theorem rnd (x : Nibble) (kk : Byte) : Statement (.rnd x kk) := (formatXK_mask_op _ _ _).trans rfl

theorem drw (x : Nibble) (y : Nibble) (n : Nibble) : Statement (.drw x y n) := (formatXYN_mask_op _ _ _ _).trans rfl

theorem skp (x : Nibble) : Statement (.skp x) := (formatXK_mask_op_kk _ _ _).trans rfl

theorem sknp (x : Nibble) : Statement (.sknp x) := (formatXK_mask_op_kk _ _ _).trans rfl

theorem ldVxDT (x : Nibble) : Statement (.ldVxDT x) := (formatXK_mask_op_kk _ _ _).trans rfl

theorem ldVxK (x : Nibble) : Statement (.ldVxK x) := (formatXK_mask_op_kk _ _ _).trans rfl

theorem ldDTVx (x : Nibble) : Statement (.ldDTVx x) := (formatXK_mask_op_kk _ _ _).trans rfl

theorem ldSTVx (x : Nibble) : Statement (.ldSTVx x) := (formatXK_mask_op_kk _ _ _).trans rfl

theorem ldFVx (x : Nibble) : Statement (.ldFVx x) := (formatXK_mask_op_kk _ _ _).trans rfl

theorem ldBVx (x : Nibble) : Statement (.ldBVx x) := (formatXK_mask_op_kk _ _ _).trans rfl

theorem ldMemVx (x : Nibble) : Statement (.ldMemVx x) := (formatXK_mask_op_kk _ _ _).trans rfl

theorem ldVxMem (x : Nibble) : Statement (.ldVxMem x) := (formatXK_mask_op_kk _ _ _).trans rfl

end Sys2Proof.Laws.TableRow
end

