-- ==== Sys2Proof/Laws/Step.lean ====
section
/-! SUPPORT. What a step, a call, a return, a key wait and a clock edge can do, said once. -/

namespace Sys2Proof.Machine

/-! ### Parts of meanings that branch -/

/-- A call has failed on a full stack or has pushed `pc + 2` and jumped (R122). -/
theorem State.callTo_cases (s : State) (nnn : Addr) :
    (s.sp.val = 12 ∧ s.callTo nnn = s.raiseFault .stackOverflow (encode (.call nnn))) ∨
      ∃ t, s.push (s.pc + 2#16) = some t ∧ s.callTo nnn = t.commitPc (addrWord nnn) := by
  rcases s.push_cases (s.pc + 2#16) with ⟨h, hp⟩ | ⟨h, hp⟩
  · exact Or.inl ⟨h, by simp [State.callTo, hp]⟩
  · exact Or.inr ⟨_, hp, by simp [State.callTo, hp]⟩

/-- A return has failed on an empty stack or has popped its target and jumped there (R123). -/
theorem State.returnFrom_cases (s : State) :
    (s.sp.val = 0 ∧ s.returnFrom = s.raiseFault .stackUnderflow (encode .ret)) ∨
      ∃ target t, s.pop = some (target, t) ∧ s.returnFrom = t.commitPc target := by
  rcases s.pop_cases with ⟨h, hp⟩ | ⟨h, hp⟩
  · exact Or.inl ⟨h, by simp [State.returnFrom, hp]⟩
  · exact Or.inr ⟨_, _, hp, by simp [State.returnFrom, hp]⟩

/-- A key wait has no key and stays, or has a key and moves on (R151). -/
theorem State.waitKey_cases (s : State) (x : Nibble) (key : Option Nibble) :
    (key = none ∧ s.waitKey x key = s.commitPc s.pc) ∨
      ∃ k, key = some k ∧ s.waitKey x key = (s.writeV x (keyByte k)).advance := by
  cases key with
  | none => exact Or.inl ⟨rfl, rfl⟩
  | some k => exact Or.inr ⟨k, rfl, rfl⟩

/-! ### Execute and step -/

/-- Every instruction answers a next state: the three fatal conditions are next states too (R100, R205). -/
theorem exec_answers_next (i : Instr) (s : State) : ∃ t, exec i s = .next t := by
  cases i <;> exact ⟨_, rfl⟩

/-- What a step that answers `t` has done: raised InvalidInstruction, or executed the decoded instruction (R100). -/
theorem step_cases {s t : State} (h : step s = .next t) :
    s.halted = false ∧
      ((∃ raw, decode s.fetch = .invalid raw ∧ t = (s.raiseFault .invalidInstruction raw).endStep) ∨
        ∃ i u, decode s.fetch = .ok i ∧ exec i s = .next u ∧ t = u.endStep) := by
  unfold step at h
  cases hh : s.halted with
  | true => simp [hh] at h
  | false =>
    refine ⟨rfl, ?_⟩
    simp only [hh, Bool.false_eq_true, if_false] at h
    cases hd : decode s.fetch with
    | invalid raw =>
      simp only [hd, Host.Outcome.next.injEq] at h
      exact Or.inl ⟨raw, rfl, h.symm⟩
    | ok i =>
      obtain ⟨u, hu⟩ := exec_answers_next i s
      simp only [hd, hu, Host.Outcome.next.injEq] at h
      exact Or.inr ⟨i, u, rfl, hu, h.symm⟩

/-- A step that runs an instruction, in the other direction. -/
theorem step_of_exec {s u : State} {i : Instr} (hh : s.halted = false) (hd : decode s.fetch = .ok i)
    (hu : exec i s = .next u) : step s = .next u.endStep := by
  simp [step, hh, hd, hu]

/-- A step on an invalid word (R102). -/
theorem step_of_invalid {s : State} {raw : Word} (hh : s.halted = false) (hd : decode s.fetch = .invalid raw) :
    step s = .next (s.raiseFault .invalidInstruction raw).endStep := by
  simp [step, hh, hd]

/-- A halted state has no successor (R208). -/
theorem step_of_halted {s : State} (hh : s.halted = true) : step s = .fault (.halted s.faultCode s.faultInstr) := by
  simp [step, hh]

/-! ### Clock edges -/

/-- What a clock edge can do (R7, R108, R231): reset, a step, one byte of the program load, or nothing. -/
theorem clockEdge_cases (image : Vector Byte 4096) (e : EdgeInput) (s : State) :
    (e.rst = true ∧ clockEdge image e s = s.applyReset image) ∨
      (e.rst = false ∧ e.stepEn = true ∧ clockEdge image e s = s.stepEdge { key := pendingKey e, rnd := e.rnd }) ∨
      (e.rst = false ∧ e.stepEn = false ∧ e.ldEn = true ∧ s.boot = true ∧ clockEdge image e s = s.loadByte e.ldData) ∨
      (e.rst = false ∧ e.stepEn = false ∧ (e.ldEn = false ∨ s.boot = false) ∧ clockEdge image e s = s) := by
  unfold clockEdge
  cases e.rst <;> cases e.stepEn <;> cases e.ldEn <;> cases s.boot <;> simp

/-- A step edge takes the step or, in a halted state, changes nothing (R208). -/
theorem State.stepEdge_cases (s : State) (i : StepInput) :
    (s.halted = true ∧ s.stepEdge i = s) ∨ (s.halted = false ∧ step (s.present i) = .next (s.stepEdge i)) := by
  cases hh : s.halted with
  | true =>
    refine Or.inl ⟨rfl, ?_⟩
    have hs : step (s.present i) = .fault (.halted s.faultCode s.faultInstr) := step_of_halted (s := s.present i) hh
    simp [State.stepEdge, hs]
  | false =>
    refine Or.inr ⟨rfl, ?_⟩
    cases hd : decode (s.present i).fetch with
    | invalid raw =>
      have hs := step_of_invalid (s := s.present i) hh hd
      simp [State.stepEdge, hs]
    | ok j =>
      obtain ⟨u, hu⟩ := exec_answers_next j (s.present i)
      have hs := step_of_exec (s := s.present i) hh hd hu
      simp [State.stepEdge, hs]

/-- An edge that asks a block that is not halted for a step is the step with the presented sample (R7, R8, R9). -/
theorem clockEdge_of_step (image : Vector Byte 4096) {e : EdgeInput} {s : State} (hr : e.rst = false)
    (he : e.stepEn = true) (hh : s.halted = false) :
    step (s.present { key := pendingKey e, rnd := e.rnd }) = .next (clockEdge image e s) := by
  have hc : clockEdge image e s = s.stepEdge { key := pendingKey e, rnd := e.rnd } := by simp [clockEdge, hr, he]
  rcases s.stepEdge_cases { key := pendingKey e, rnd := e.rnd } with ⟨h, _⟩ | ⟨_, h⟩
  · simp [hh] at h
  · rw [hc, h]

/-! ### The memory stays canonical -/

/-- The load port keeps the canonical form of the memory. -/
theorem State.loadByte_wf (s : State) (b : Byte) (h : Memory.wf s.mem = true) :
    Memory.wf (s.loadByte b).mem = true := State.memWrite_wf s _ b h

/-- Placing a word at `pc` keeps the canonical form of the memory. -/
theorem State.placeAtPc_wf (s : State) (w : Word) (h : Memory.wf s.mem = true) :
    Memory.wf (s.placeAtPc w).mem = true := State.memWrite_wf _ _ _ (State.memWrite_wf s _ _ h)

end Sys2Proof.Machine
end

