-- ==== Sys2Proof/Tests/Slice0.lean ====
section
/-! SUPPORT. The model's own tests: decoding of words written out from the spec's encodings (spec/30_encoding.md R87),
ill-formed terms for each well-formedness check, single steps against the vectors of spec/95_test_vectors.md (each
test names its vector), and a witness for the hypotheses of every statement that has some. -/

namespace Sys2Proof.Tests

open Sys2Proof Sys2Proof.Machine

/-! ### Decoding (R87; words written from the rows' encodings) -/

theorem test_decode_cls : decode 0b0000000011100000#16 = .ok .cls := by decide
theorem test_decode_ret : decode 0b0000000011101110#16 = .ok .ret := by decide
theorem test_decode_sys : decode 0b0000000100100011#16 = .ok (.sys 0x123#12) := by decide
theorem test_decode_jp : decode 0b0001101010111100#16 = .ok (.jp 0xABC#12) := by decide
theorem test_decode_call : decode 0b0010101010111100#16 = .ok (.call 0xABC#12) := by decide
theorem test_decode_seImm : decode 0b0011101000010010#16 = .ok (.seImm 0xA#4 0x12#8) := by decide
theorem test_decode_sneImm : decode 0b0100101000010010#16 = .ok (.sneImm 0xA#4 0x12#8) := by decide
theorem test_decode_seReg : decode 0b0101101010110000#16 = .ok (.seReg 0xA#4 0xB#4) := by decide
theorem test_decode_ldImm : decode 0b0110101001010101#16 = .ok (.ldImm 0xA#4 0x55#8) := by decide
theorem test_decode_addImm : decode 0b0111111100000001#16 = .ok (.addImm 0xF#4 0x01#8) := by decide
theorem test_decode_ldReg : decode 0b1000101010110000#16 = .ok (.ldReg 0xA#4 0xB#4) := by decide
theorem test_decode_orReg : decode 0b1000101010110001#16 = .ok (.orReg 0xA#4 0xB#4) := by decide
theorem test_decode_andReg : decode 0b1000101010110010#16 = .ok (.andReg 0xA#4 0xB#4) := by decide
theorem test_decode_xorReg : decode 0b1000101010110011#16 = .ok (.xorReg 0xA#4 0xB#4) := by decide
theorem test_decode_addReg : decode 0b1000101010110100#16 = .ok (.addReg 0xA#4 0xB#4) := by decide
theorem test_decode_subReg : decode 0b1000101010110101#16 = .ok (.subReg 0xA#4 0xB#4) := by decide
theorem test_decode_shr : decode 0b1000101010110110#16 = .ok (.shr 0xA#4 0xB#4) := by decide
theorem test_decode_subnReg : decode 0b1000101010110111#16 = .ok (.subnReg 0xA#4 0xB#4) := by decide
theorem test_decode_shl : decode 0b1000101010111110#16 = .ok (.shl 0xA#4 0xB#4) := by decide
theorem test_decode_sneReg : decode 0b1001101010110000#16 = .ok (.sneReg 0xA#4 0xB#4) := by decide
theorem test_decode_ldI : decode 0b1010111111111111#16 = .ok (.ldI 0xFFF#12) := by decide
theorem test_decode_jpV0 : decode 0b1011001100000000#16 = .ok (.jpV0 0x300#12) := by decide
theorem test_decode_rnd : decode 0b1100000100001111#16 = .ok (.rnd 0x1#4 0x0F#8) := by decide
theorem test_decode_drw : decode 0b1101000000010010#16 = .ok (.drw 0x0#4 0x1#4 0x2#4) := by decide
theorem test_decode_skp : decode 0b1110010110011110#16 = .ok (.skp 0x5#4) := by decide
theorem test_decode_sknp : decode 0b1110010110100001#16 = .ok (.sknp 0x5#4) := by decide
theorem test_decode_ldVxDT : decode 0b1111001000000111#16 = .ok (.ldVxDT 0x2#4) := by decide
theorem test_decode_ldVxK : decode 0b1111000100001010#16 = .ok (.ldVxK 0x1#4) := by decide
theorem test_decode_ldDTVx : decode 0b1111001100010101#16 = .ok (.ldDTVx 0x3#4) := by decide
theorem test_decode_ldSTVx : decode 0b1111001100011000#16 = .ok (.ldSTVx 0x3#4) := by decide
theorem test_decode_ldFVx : decode 0b1111001100101001#16 = .ok (.ldFVx 0x3#4) := by decide
theorem test_decode_ldBVx : decode 0b1111001000110011#16 = .ok (.ldBVx 0x2#4) := by decide
theorem test_decode_ldMemVx : decode 0b1111001001010101#16 = .ok (.ldMemVx 0x2#4) := by decide
theorem test_decode_ldVxMem : decode 0b1111001001100101#16 = .ok (.ldVxMem 0x2#4) := by decide

/-- E5: the neighbours of CLS and RET are SYS. -/
theorem test_decode_sys_neighbours :
    decode 0x0000#16 = .ok (.sys 0x000#12) ∧ decode 0x00E1#16 = .ok (.sys 0x0E1#12) ∧
      decode 0x0FFF#16 = .ok (.sys 0xFFF#12) := by decide

/-- E6, E7, E9 to E12: invalid words carry themselves. -/
theorem test_decode_invalid :
    decode 0x5AB1#16 = .invalid 0x5AB1#16 ∧ decode 0x9AB7#16 = .invalid 0x9AB7#16 ∧
      decode 0x8AB8#16 = .invalid 0x8AB8#16 ∧ decode 0xE09F#16 = .invalid 0xE09F#16 ∧
      decode 0xF01E#16 = .invalid 0xF01E#16 ∧ decode 0xFFFF#16 = .invalid 0xFFFF#16 := by decide

/-- U5: with `SUBN_PRESENT` false the word `8xy7` is invalid. -/
theorem test_decode_subn_absent : decodeWith false 0x8127#16 = .invalid 0x8127#16 := by decide

/-- The table's numbering of bits: an 8-bit-per-byte word of 16 bits, and a byte list too short. -/
theorem test_decode_table_word :
    decodeTableWord 16 0x3A12 = some (.seImm 0xA#4 0x12#8) ∧ decodeTableWord 16 0x5AB1 = none ∧
      decodeBytes [0x12#8] = .error .truncated := by decide

/-! ### Ill-formed terms -/

theorem test_wf_refuses_sys_cls : (Instr.sys 0x0E0#12).wf = false := by decide
theorem test_wf_refuses_sys_ret : (Instr.sys 0x0EE#12).wf = false := by decide
theorem test_wf_refuses_subn_absent : (Instr.subnReg 0x1#4 0x2#4).wfWith false = false := by decide
theorem test_wf_accepts_sys : (Instr.sys 0x0E1#12).wf = true ∧ (Instr.subnReg 0x1#4 0x2#4).wf = true := by decide

/-! ### Single steps (vectors of spec/95_test_vectors.md) -/

/-- The reset state with the word at `pc` and with no key and random byte 0 at the coming step. -/
def fresh (w : Nat) : State := (State.reset.present { key := none, rnd := 0 }).withFetchWord 16 w

/-- The reset state moved to another address, with the word there. -/
def freshAt (pc : Word) (w : Nat) : State :=
  ({ State.reset with pc := pc }.present { key := none, rnd := 0 }).withFetchWord 16 w

/-- Another pending key at the coming step. -/
def withKey (s : State) (k : Option Nibble) : State := { s with inputs := [{ key := k, rnd := 0 }] }

/-- Another random byte at the coming step. -/
def withRnd (s : State) (b : Byte) : State := { s with inputs := [{ key := none, rnd := b }] }

/-- Both timers set. -/
def withTimers (s : State) (dt st : Byte) : State := (s.setDT dt).setST st

/-- A stack with some live entries, every slot holding the same value. -/
def withStack (s : State) (sp : Fin 13) (w : Word) : State := { s with sp := sp, stack := Vector.replicate 12 w }

/-- A property of the state after one step. -/
def afterStep (s : State) (p : State → Bool) : Bool :=
  match step s with
  | .next t => p t
  | .fault _ => false
  | .refused _ => false

/-- The registers hold 0x10, 0x11, ... (M8 to M11). -/
def countingRegs (s : State) : State := { s with v := Vector.ofFn (fun i => BitVec.ofNat 8 (0x10 + i.val)) }

/-- E2 and F2: the second byte of a word at 0xFFF comes from address 0. -/
theorem test_ldImm_F2 : afterStep (freshAt 0xFFF#16 0x6122)
    (fun t => t.readV 0x1#4 == 0x22#8 && t.pc == 0x001#16 && t.memRead 0 == 0x22#8) = true := by decide
/-- F1. -/
theorem test_ldImm_F1 : afterStep (freshAt 0xFFE#16 0x6001)
    (fun t => t.readV 0x0#4 == 0x01#8 && t.pc == 0x000#16) = true := by decide
/-- F4. -/
theorem test_seImm_F4 : afterStep (freshAt 0xFFE#16 0x3000) (fun t => t.pc == 0x002#16) = true := by decide
/-- K2. -/
theorem test_seImm_K2 : afterStep ((fresh 0x3A12).writeV 0xA#4 0x13#8) (fun t => t.pc == 0x202#16) = true := by
  decide
/-- F5. -/
theorem test_sneImm_F5 : afterStep (freshAt 0xFFE#16 0x4000) (fun t => t.pc == 0x000#16) = true := by decide
/-- K4. -/
theorem test_sneImm_K4 : afterStep ((fresh 0x4A12).writeV 0xA#4 0x13#8) (fun t => t.pc == 0x204#16) = true := by
  decide
/-- K5. -/
theorem test_seReg_K5 : afterStep (((fresh 0x5AB0).writeV 0xA#4 1#8).writeV 0xB#4 1#8)
    (fun t => t.pc == 0x204#16) = true := by decide
/-- K6. -/
theorem test_seReg_K6 : afterStep (((fresh 0x5AB0).writeV 0xA#4 1#8).writeV 0xB#4 2#8)
    (fun t => t.pc == 0x202#16) = true := by decide
/-- K8. -/
theorem test_sneReg_K8 : afterStep (((fresh 0x9AB0).writeV 0xA#4 1#8).writeV 0xB#4 2#8)
    (fun t => t.pc == 0x204#16) = true := by decide
/-- K10. -/
theorem test_sneReg_K10 : afterStep ((fresh 0x9AA0).writeV 0xA#4 1#8) (fun t => t.pc == 0x202#16) = true := by
  decide
/-- K14: key 0 is a key. -/
theorem test_skp_K14 : afterStep (withKey (fresh 0xE09E) (some 0x0#4)) (fun t => t.pc == 0x204#16) = true := by
  decide
/-- K16: the whole byte is compared. -/
theorem test_skp_K16 : afterStep (withKey ((fresh 0xE09E).writeV 0x0#4 0x15#8) (some 0x5#4))
    (fun t => t.pc == 0x202#16) = true := by decide
/-- K18. -/
theorem test_sknp_K18 : afterStep (withKey ((fresh 0xE0A1).writeV 0x0#4 0x05#8) none)
    (fun t => t.pc == 0x204#16) = true := by decide
/-- K17. -/
theorem test_sknp_K17 : afterStep (withKey ((fresh 0xE0A1).writeV 0x0#4 0x05#8) (some 0x5#4))
    (fun t => t.pc == 0x202#16) = true := by decide

/-- F7. -/
theorem test_jp_F7 : afterStep (fresh 0x1ABC) (fun t => t.pc == 0xABC#16) = true := by decide
/-- F8: an odd target. -/
theorem test_jp_F8 : afterStep (fresh 0x1201) (fun t => t.pc == 0x201#16 && !t.halted) = true := by decide
/-- F6. -/
theorem test_jpV0_F6 : afterStep ((fresh 0xBFFF).writeV 0x0#4 0xFF#8) (fun t => t.pc == 0x0FE#16) = true := by
  decide
/-- F10: the pushed address is not reduced. -/
theorem test_call_F10 : afterStep (freshAt 0xFFE#16 0x2ABC)
    (fun t => t.stack[0] == 0x1000#16 && t.sp == 1 && t.pc == 0xABC#16) = true := by decide
/-- X1. -/
theorem test_call_X1 : afterStep ((withStack (fresh 0x2200) 12 0x0202#16).setDT 4#8)
    (fun t => t.halted && t.faultCode.bits == 2 && t.stkOvf && t.faultInstr == 0x2200#16 && t.sp == 12 &&
      t.pc == 0x200#16 && t.dt == 3#8) = true := by decide
/-- F11: the popped entry's bits stay. -/
theorem test_ret_F11 : afterStep (withStack (fresh 0x00EE) 1 0x0345#16)
    (fun t => t.sp == 0 && t.pc == 0x345#16 && t.stack[0] == 0x0345#16) = true := by decide
/-- X2. -/
theorem test_ret_X2 : afterStep (withTimers (fresh 0x00EE) 2#8 3#8)
    (fun t => t.halted && t.faultCode.bits == 3 && t.stkUnf && t.faultInstr == 0x00EE#16 && t.pc == 0x200#16 &&
      t.dt == 1#8 && t.st == 2#8) = true := by decide
/-- F12. -/
theorem test_sys_F12 : afterStep (withTimers (fresh 0x0123) 255#8 1#8)
    (fun t => t.dt == 254#8 && t.st == 0#8 && t.pc == 0x202#16) = true := by decide

/-- LD2. -/
theorem test_ldReg_LD2 : afterStep ((fresh 0x8010).writeV 0x1#4 0x42#8)
    (fun t => t.readV 0x0#4 == 0x42#8 && t.readV 0x1#4 == 0x42#8) = true := by decide
/-- LD3. -/
theorem test_ldI_LD3 : afterStep (fresh 0xAFFF) (fun t => t.index == 0x0FFF#16) = true := by decide
/-- LD6: no mask. -/
theorem test_ldFVx_LD6 : afterStep ((fresh 0xF029).writeV 0x0#4 0x1A#8) (fun t => t.index == 130#16) = true := by
  decide
/-- M6: the digits wrap around the top of memory. -/
theorem test_ldBVx_M6 : afterStep (((fresh 0xF033).writeV 0x0#4 199#8).setIndex 0xFFE#16)
    (fun t => t.memRead 0xFFE == 1#8 && t.memRead 0xFFF == 9#8 && t.memRead 0 == 9#8 && t.index == 0xFFE#16) = true := by
  decide
/-- M2: zeros are stored too. -/
theorem test_ldBVx_M2 : afterStep ((((fresh 0xF033).setIndex 0x300#16).memWrite 0x300 9#8).memWrite 0x302 9#8)
    (fun t => t.memRead 0x300 == 0#8 && t.memRead 0x302 == 0#8) = true := by decide
/-- M11. -/
theorem test_ldMemVx_M11 : afterStep ((countingRegs (fresh 0xF355)).setIndex 0xFFE#16)
    (fun t => t.memRead 0xFFE == 0x10#8 && t.memRead 0x001 == 0x13#8 && t.memRead 0x002 == 0#8 &&
      t.index == 0xFFE#16) = true := by decide
/-- M10: all sixteen registers. -/
theorem test_ldMemVx_M10 : afterStep ((countingRegs (fresh 0xFF55)).setIndex 0x300#16)
    (fun t => t.memRead 0x300 == 0x10#8 && t.memRead 0x30F == 0x1F#8 && t.memRead 0x310 == 0#8) = true := by
  decide
/-- M12. -/
theorem test_ldVxMem_M12 : afterStep
    (((((fresh 0xF265).setIndex 0x300#16).memWrite 0x300 0x0A#8).memWrite 0x302 0x0C#8).writeV 0x3#4 9#8)
    (fun t => t.readV 0x0#4 == 0x0A#8 && t.readV 0x2#4 == 0x0C#8 && t.readV 0x3#4 == 9#8 && t.index == 0x300#16) =
      true := by decide
/-- M13: the load wraps. -/
theorem test_ldVxMem_M13 : afterStep
    ((((fresh 0xF365).setIndex 0xFFE#16).memWrite 0xFFF 2#8).memWrite 0x001 4#8)
    (fun t => t.readV 0x1#4 == 2#8 && t.readV 0x3#4 == 4#8 && t.readV 0x4#4 == 0#8) = true := by decide
/-- T1. -/
theorem test_ldVxDT_T1 : afterStep ((fresh 0xF207).setDT 5#8)
    (fun t => t.readV 0x2#4 == 4#8 && t.dt == 4#8) = true := by decide
/-- T3: the floor. -/
theorem test_ldVxDT_T3 : afterStep (fresh 0xF207) (fun t => t.readV 0x2#4 == 0#8 && t.dt == 0#8) = true := by
  decide
/-- T4. -/
theorem test_ldDTVx_T4 : afterStep ((withTimers (fresh 0xF315) 200#8 1#8).writeV 0x3#4 9#8)
    (fun t => t.dt == 9#8 && t.st == 0#8) = true := by decide
/-- T5. -/
theorem test_ldSTVx_T5 : afterStep ((withTimers (fresh 0xF318) 0#8 7#8).writeV 0x3#4 0xFF#8)
    (fun t => t.st == 255#8 && t.dt == 0#8) = true := by decide
/-- T7. -/
theorem test_ldVxK_T7 : afterStep (withKey (((fresh 0xF30A).writeV 0x3#4 0x99#8).setDT 3#8) none)
    (fun t => t.pc == 0x200#16 && t.readV 0x3#4 == 0x99#8 && t.dt == 2#8) = true := by decide
/-- T8: key 0 ends the wait. -/
theorem test_ldVxK_T8 : afterStep (withKey (((fresh 0xF30A).writeV 0x3#4 0x99#8).setDT 3#8) (some 0x0#4))
    (fun t => t.pc == 0x202#16 && t.readV 0x3#4 == 0#8 && t.dt == 2#8) = true := by decide

/-- A6: `x` = 15, the flag wins. -/
theorem test_addReg_A6 : afterStep (((fresh 0x8F14).writeV 0xF#4 3#8).writeV 0x1#4 4#8)
    (fun t => t.readV 0xF#4 == 0#8) = true := by decide
/-- A7: `y` = 15, `VF` is read first. -/
theorem test_addReg_A7 : afterStep (((fresh 0x80F4).writeV 0x0#4 1#8).writeV 0xF#4 255#8)
    (fun t => t.readV 0x0#4 == 0#8 && t.readV 0xF#4 == 1#8) = true := by decide
/-- A31. -/
theorem test_addImm_A31 : afterStep (((fresh 0x700A).writeV 0x0#4 250#8).writeV 0xF#4 7#8)
    (fun t => t.readV 0x0#4 == 4#8 && t.readV 0xF#4 == 7#8) = true := by decide
/-- A32. -/
theorem test_addImm_A32 : afterStep ((fresh 0x7F01).writeV 0xF#4 255#8) (fun t => t.readV 0xF#4 == 0#8) = true := by
  decide
/-- A8. -/
theorem test_subReg_A8 : afterStep (((fresh 0x8015).writeV 0x0#4 5#8).writeV 0x1#4 10#8)
    (fun t => t.readV 0x0#4 == 251#8 && t.readV 0xF#4 == 0#8) = true := by decide
/-- A10: equal operands, no borrow. -/
theorem test_subReg_A10 : afterStep (((fresh 0x8015).writeV 0x0#4 7#8).writeV 0x1#4 7#8)
    (fun t => t.readV 0x0#4 == 0#8 && t.readV 0xF#4 == 1#8) = true := by decide
/-- A14. -/
theorem test_subnReg_A14 : afterStep (((fresh 0x8017).writeV 0x0#4 5#8).writeV 0x1#4 10#8)
    (fun t => t.readV 0x0#4 == 5#8 && t.readV 0xF#4 == 1#8) = true := by decide
/-- A15. -/
theorem test_subnReg_A15 : afterStep (((fresh 0x8017).writeV 0x0#4 10#8).writeV 0x1#4 5#8)
    (fun t => t.readV 0x0#4 == 251#8 && t.readV 0xF#4 == 0#8) = true := by decide
/-- A27. -/
theorem test_orReg_A27 : afterStep ((((fresh 0x8011).writeV 0x0#4 0xF0#8).writeV 0x1#4 0x0F#8).writeV 0xF#4 7#8)
    (fun t => t.readV 0x0#4 == 0xFF#8 && t.readV 0xF#4 == 7#8) = true := by decide
/-- A28. -/
theorem test_andReg_A28 : afterStep ((((fresh 0x8012).writeV 0x0#4 0xF0#8).writeV 0x1#4 0x3C#8).writeV 0xF#4 7#8)
    (fun t => t.readV 0x0#4 == 0x30#8 && t.readV 0xF#4 == 7#8) = true := by decide
/-- A29. -/
theorem test_xorReg_A29 : afterStep ((((fresh 0x8013).writeV 0x0#4 0xFF#8).writeV 0x1#4 0x0F#8).writeV 0xF#4 7#8)
    (fun t => t.readV 0x0#4 == 0xF0#8 && t.readV 0xF#4 == 7#8) = true := by decide
/-- A18: `V[y]` is ignored. -/
theorem test_shr_A18 : afterStep (((fresh 0x8016).writeV 0x0#4 5#8).writeV 0x1#4 0xFF#8)
    (fun t => t.readV 0x0#4 == 2#8 && t.readV 0xF#4 == 1#8 && t.readV 0x1#4 == 0xFF#8) = true := by decide
/-- A22: `x` = 15. -/
theorem test_shr_A22 : afterStep ((fresh 0x8F06).writeV 0xF#4 2#8) (fun t => t.readV 0xF#4 == 0#8) = true := by
  decide
/-- A23. -/
theorem test_shl_A23 : afterStep (((fresh 0x801E).writeV 0x0#4 0x81#8).writeV 0x1#4 0xFF#8)
    (fun t => t.readV 0x0#4 == 0x02#8 && t.readV 0xF#4 == 1#8 && t.readV 0x1#4 == 0xFF#8) = true := by decide
/-- A26: `x` = 15. -/
theorem test_shl_A26 : afterStep ((fresh 0x8F0E).writeV 0xF#4 0x41#8) (fun t => t.readV 0xF#4 == 0#8) = true := by
  decide

/-- RN1. -/
theorem test_rnd_RN1 : afterStep (withRnd ((fresh 0xC00F).writeV 0xF#4 9#8) 0xA7#8)
    (fun t => t.readV 0x0#4 == 0x07#8 && t.readV 0xF#4 == 9#8) = true := by decide
/-- RN3. -/
theorem test_rnd_RN3 : afterStep (withRnd ((fresh 0xC000).writeV 0x0#4 0x55#8) 0xA7#8)
    (fun t => t.readV 0x0#4 == 0#8) = true := by decide

/-- A frame buffer with the one cell (1, 0) on. -/
def oneCellOn (s : State) : State := s.setFb (fbSet s.fb 1#6 0#5 true)

/-- W2: the sprite wraps at the right edge. -/
theorem test_drw_W2 : afterStep (((((fresh 0xD011).setIndex 0x300#16).memWrite 0x300 0xFF#8).writeV 0x0#4 63#8))
    (fun t => t.pixel 63#6 0#5 && t.pixel 0#6 0#5 && t.pixel 6#6 0#5 && !t.pixel 7#6 0#5 && !t.pixel 62#6 0#5 &&
      t.readV 0xF#4 == 0#8) = true := by decide
/-- W10: a cell that is on goes off and is reported; bit 6 is column 1. -/
theorem test_drw_W10 : afterStep (oneCellOn (((fresh 0xD011).setIndex 0x301#16).memWrite 0x301 0x60#8))
    (fun t => !t.pixel 0#6 0#5 && !t.pixel 1#6 0#5 && t.pixel 2#6 0#5 && t.readV 0xF#4 == 1#8) = true := by
  decide
/-- W14. -/
theorem test_cls_W14 : afterStep (oneCellOn ((fresh 0x00E0).writeV 0xF#4 1#8))
    (fun t => !t.pixel 1#6 0#5 && t.readV 0xF#4 == 1#8 && t.pc == 0x202#16) = true := by decide

/-- T6: an invalid word ticks no timer. -/
theorem test_invalid_T6 : afterStep ((fresh 0xFFFF).setDT 3#8)
    (fun t => t.halted && t.faultCode.bits == 1 && t.faultInstr == 0xFFFF#16 && t.dt == 3#8 && t.pc == 0x200#16) =
      true := by decide
/-- X5: an invalid word fetched across the top of memory. -/
theorem test_invalid_X5 : afterStep (freshAt 0xFFF#16 0xE000)
    (fun t => t.faultInstr == 0xE000#16 && t.pc == 0xFFF#16) = true := by decide
/-- CLS completes as the first step after reset, and so does what zeroed memory holds (R124). -/
theorem test_cls_step_completes : afterStep (fresh 0x00E0) (fun _ => true) = true := by decide
theorem test_reset_step_completes : afterStep State.reset (fun _ => true) = true := by decide

/-- X4: a clock edge that asks a halted block for a step changes nothing, and `step` answers the fault. -/
theorem test_halted_X4 :
    step { State.reset with halted := true, faultCode := .stackUnderflow, faultInstr := 0x00EE#16 } =
      .fault (.halted .stackUnderflow 0x00EE#16) := by rfl

/-! ### Program load (R233; B1, B3 and B4 in small) -/

/-- An edge of the load port. -/
def loadEdge (b : Byte) : EdgeInput :=
  { rst := false, stepEn := false, ldEn := true, ldData := b, keyValid := false, keyCode := 0, rnd := 0 }

/-- An edge of a reset. -/
def resetEdge : EdgeInput :=
  { rst := true, stepEn := true, ldEn := true, ldData := 1#8, keyValid := true, keyCode := 0, rnd := 0 }

/-- An edge that asks for a step with key 7 pending. -/
def stepEdgeKey7 : EdgeInput :=
  { rst := false, stepEn := true, ldEn := false, ldData := 0#8, keyValid := true, keyCode := 0x7#4, rnd := 0 }

/-- The same edge with `key_valid` = 0: the key code means nothing (R8, U14). -/
def stepEdgeNoKey : EdgeInput := { stepEdgeKey7 with keyValid := false }

/-- The default `MEM_INIT` image (R6). -/
def zeroImage : Vector Byte 4096 := Vector.replicate 4096 0#8

/-- B1. -/
theorem test_load_B1 : (State.reset.loadRom [0x12#8, 0x00#8]).memRead 0x200 = 0x12#8 ∧
    (State.reset.loadRom [0x12#8, 0x00#8]).memRead 0x201 = 0x00#8 ∧
    (State.reset.loadRom [0x12#8, 0x00#8]).ldPtr = 0x202#12 := by decide
/-- The load pointer wraps past the top of memory (B2, B3). -/
theorem test_load_wraps :
    (({ State.reset with ldPtr := 0xFFF#12 }.loadByte 0x11#8).loadByte 0x22#8).memRead 0x000 = 0x22#8 ∧
    (({ State.reset with ldPtr := 0xFFF#12 }.loadByte 0x11#8).loadByte 0x22#8).memRead 0xFFF = 0x11#8 := by
  decide
/-- A step edge samples the pending key (R8), and ends the boot phase (R231). -/
theorem test_edge_key : (clockEdge zeroImage stepEdgeKey7 (State.reset.withFetchWord 16 0xF10A)).readV 0x1#4 = 0x07#8 ∧
    (clockEdge zeroImage stepEdgeKey7 (State.reset.withFetchWord 16 0xF10A)).boot = false ∧
    (clockEdge zeroImage stepEdgeKey7 (State.reset.withFetchWord 16 0xF10A)).inputs = [] := by decide

/-- Without a key the same edge leaves LD V1,K waiting (T7). -/
theorem test_edge_no_key :
    (clockEdge zeroImage stepEdgeNoKey (State.reset.withFetchWord 16 0xF10A)).pc = 0x200#16 := by decide
/-- A reset edge restores the image, whatever the memory was (R40, R230), at the bytes the placed word overwrote. -/
theorem test_edge_reset_image (image : Vector Byte 4096) :
    (clockEdge image resetEdge (State.reset.withFetchWord 16 0xF10A)).memRead 0x200 = image[0x200] :=
  State.memRead_resetWith image 0x200

/-! ### Witnesses: a concrete state and operands that meet the hypotheses of each statement -/

theorem test_hyp_EncodedInstructionDecodesBack :
    (Instr.sys 0xFFF#12).wfWith false = true ∧ (Instr.subnReg 0xF#4 0xF#4).wfWith true = true := by decide
theorem test_hyp_DecodedWordEncodesBack : decodeWith false 0x8126#16 = .ok (.shr 0x1#4 0x2#4) ∧
    decodeWith true 0x8127#16 = .ok (.subnReg 0x1#4 0x2#4) := by decide
theorem test_hyp_InvalidWordsAreExactlyTheListedOnes : decode 0xFFFF#16 = .invalid 0xFFFF#16 := by decide
theorem test_hyp_WordMatchesItsTableRow : decode 0x00E0#16 = .ok .cls ∧
    (0x00E1#16 &&& tableMask (.sys 0x000#12) = tableMatch (.sys 0x000#12) ∧
      (tableMatch (.sys 0x000#12) = 0x0000#16 → (0x00E1#16 : Word) ≠ 0x00E0#16 ∧ (0x00E1#16 : Word) ≠ 0x00EE#16)) := by
  decide
theorem test_hyp_TwoBytesDecodeBigEndian : (Instr.ldI 0xFFF#12).wf = true ∧
    ((0xF01E#16 : Word).toNat = (0xF0#8 : Byte).toNat * 256 + (0x1E#8 : Byte).toNat ∧
      decode 0xF01E#16 = .invalid 0xF01E#16) := by decide
theorem test_hyp_CanonicalMemoriesWithEqualReadsAreEqual :
    Memory.wf [(0, 1#8), (0xFFF, 2#8)] = true ∧
      (∀ a, a < 4096 → Memory.lookup [(0, 1#8), (0xFFF, 2#8)] a = Memory.lookup [(0, 1#8), (0xFFF, 2#8)] a) :=
  ⟨by decide, fun _ _ => rfl⟩

/-- LD [I],V1 at 0x200 with `I` at the next instruction, so that the two stored bytes are fetched next. -/
def storesNext : State := (fresh 0xF155).setIndex 0x202#16

theorem test_hyp_StoredBytesAreFetchedNext : (0 : Nat) < (0x1#4 : Nibble).toNat ∧
    ∃ t, exec (.ldMemVx 0x1#4) storesNext = .next t ∧ t.pc.toNat % 4096 = storesNext.effAddr 0 % 4096 :=
  ⟨by decide, _, rfl, by decide⟩

theorem test_hyp_StepRunsTheDecodedInstruction : (freshAt 0xFFF#16 0x6122).halted = false ∧
    (0x6122#16 : Word).toNat =
      ((freshAt 0xFFF#16 0x6122).memRead (freshAt 0xFFF#16 0x6122).pc.toNat).toNat * 256 +
        ((freshAt 0xFFF#16 0x6122).memRead ((freshAt 0xFFF#16 0x6122).pc.toNat + 1)).toNat ∧
    decode 0x6122#16 = .ok (.ldImm 0x1#4 0x22#8) ∧
    (stepEdgeKey7.rst = false ∧ stepEdgeKey7.stepEn = true ∧ stepEdgeKey7.keyValid = true) ∧
    (stepEdgeNoKey.rst = false ∧ stepEdgeNoKey.stepEn = true ∧ stepEdgeNoKey.keyValid = false) := by decide
theorem test_hyp_InvalidWordHaltsWithoutTick : (fresh 0xF01E).halted = false ∧
    decode (fresh 0xF01E).fetch = .invalid 0xF01E#16 := by decide

/-- A block halted by a return on an empty stack. -/
def haltedState : State :=
  { State.reset with halted := true, faultCode := .stackUnderflow, faultInstr := 0x00EE#16, stkUnf := true, boot := false }

theorem test_hyp_HaltedBlockTakesNoStep : haltedState.halted = true ∧
    (stepEdgeKey7.rst = false ∧ stepEdgeKey7.stepEn = true) ∧
    ((loadEdge 1#8).rst = false ∧ haltedState.boot = false) := by decide
theorem test_hyp_EveryInstructionTicksBothTimers : (∀ x, Instr.call 0xFFF#12 ≠ .ldDTVx x) ∧
    (∀ x, Instr.ldDTVx 0x0#4 ≠ .ldSTVx x) := by simp
theorem test_hyp_InstructionsChangeOnlyTheirParts :
    (∃ t, exec (.ldVxMem 0xE#4) State.reset = .next t) ∧ writesRegister (.ldVxMem 0xE#4) 0xF#4 = false :=
  ⟨⟨_, rfl⟩, by decide⟩
theorem test_hyp_OnlyCallAndRetFault :
    (∃ t, exec (.call 0x200#12) (withStack State.reset 12 0x0202#16) = .next t ∧ t.halted = true) ∧
    (withStack State.reset 12 0x0202#16).halted = false ∧
    (∃ t, exec .ret State.reset = .next t ∧ t.halted = true) ∧ State.reset.halted = false :=
  ⟨⟨_, rfl, by decide⟩, by decide, ⟨_, rfl, by decide⟩, by decide⟩
theorem test_hyp_InputsAreReadOnlyByTheirInstructions :
    (readsKey (.skp 0x0#4) → { withKey State.reset (some 0x5#4) with
        inputs := [{ key := some 0x5#4, rnd := 0xFF#8 }], steps := 9 }.key = (withKey State.reset (some 0x5#4)).key) ∧
    (readsRnd (.skp 0x0#4) → { withKey State.reset (some 0x5#4) with
        inputs := [{ key := some 0x5#4, rnd := 0xFF#8 }], steps := 9 }.rnd = (withKey State.reset (some 0x5#4)).rnd) :=
  ⟨fun _ => by decide, fun h => by obtain ⟨x, kk, h⟩ := h; cases h⟩

theorem test_hyp_CallPushesReturnAddressAndJumps :
    State.reset.sp.val < 12 ∧ (withStack State.reset 11 0x0202#16).sp.val < 12 := by decide
theorem test_hyp_CallOnFullStackHalts : (withStack State.reset 12 0x0202#16).sp.val = 12 := by decide
theorem test_hyp_ReturnPopsItsTarget :
    (withStack State.reset 1 0x0202#16).sp.val = (0 : Fin 12).val + 1 ∧
      (withStack State.reset 12 0x0202#16).sp.val = (11 : Fin 12).val + 1 := by decide
theorem test_hyp_ReturnOnEmptyStackHalts : State.reset.sp.val = 0 := by decide
theorem test_hyp_SysOnlyAdvances : (0xFFF#12 : Addr) ≠ 0x0E0#12 ∧ (0xFFF#12 : Addr) ≠ 0x0EE#12 := by decide
theorem test_hyp_PushStoresOrOverflows : (withStack State.reset 12 0x0202#16).sp.val = 12 ∧
    (withStack State.reset 11 0x0202#16).sp.val ≠ 12 := by decide
theorem test_hyp_PopAnswersOrUnderflows : State.reset.sp.val = 0 ∧
    (withStack State.reset 12 0x0202#16).sp.val = (11 : Fin 12).val + 1 := by decide
theorem test_hyp_StackIsLastInFirstOut :
    State.reset.sp.val + [0x202#16, 0x206#16].length ≤ 12 ∧
      (withStack State.reset 10 0x0202#16).sp.val + [0x202#16, 0x206#16].length = 12 := by decide
theorem test_hyp_RegisterSkipsCompareTwoRegisters : 0 < 1 ∧ 1 < 16 ∧ 0 < 15 ∧ 15 < 16 := by decide
theorem test_hyp_KeySkipsCompareTheWholeByte : (withKey State.reset none).key = none ∧
    (withKey State.reset (some 0xF#4)).key = some 0xF#4 := by decide
theorem test_hyp_BlockStoreWritesV0ToVx : (0xF#4 : Nibble).toNat ≤ (0xF#4 : Nibble).toNat ∧
    (∀ i, i ≤ (0xF#4 : Nibble).toNat → 0x310 % 4096 ≠ ((fresh 0xFF55).setIndex 0x300#16).effAddr i % 4096) := by
  refine ⟨by decide, fun i hi => ?_⟩
  have hi : i ≤ 15 := hi
  have : ((fresh 0xFF55).setIndex 0x300#16).effAddr i = 0x300 + i := rfl
  omega
theorem test_hyp_BcdStoreWritesThreeDigits :
    ∀ i, i < 3 → 0x303 % 4096 ≠ ((fresh 0xF033).setIndex 0x300#16).effAddr i % 4096 := by
  intro i hi
  have : ((fresh 0xF033).setIndex 0x300#16).effAddr i = 0x300 + i := rfl
  omega
theorem test_hyp_KeyWaitRetriesUntilAKey : (withKey State.reset none).key = none ∧
    (withKey State.reset (some 0x0#4)).key = some 0x0#4 := by decide

/-- Two samples without a key and one with key 7, at an LD V1,K. -/
def waits : State :=
  { fresh 0xF10A with
    inputs := [{ key := none, rnd := 0 }, { key := none, rnd := 1 }] ++ { key := some 0x7#4, rnd := 0#8 } :: [] }

theorem test_hyp_KeyWaitSpansItsAttempts : waits.halted = false ∧ decode waits.fetch = .ok (.ldVxK 0x1#4) ∧
    (∀ i ∈ [({ key := none, rnd := 0 } : StepInput), { key := none, rnd := 1 }], i.key = none) ∧
    waits.inputs =
      [{ key := none, rnd := 0 }, { key := none, rnd := 1 }] ++ { key := some 0x7#4, rnd := 0#8 } :: [] := by
  decide
theorem test_hyp_ToggleReportsOnToOff : fbGet (oneCellOn State.reset).fb 1#6 0#5 = true ∧
    fbGet (oneCellOn State.reset).fb 63#6 31#5 = false ∧ ((63#6, 31#5) : BitVec 6 × BitVec 5) ≠ (1#6, 0#5) := by
  decide

/-- A sprite of one row 0x80 at `I` = 0x300, drawn at column 63, row 31, with `V0` = 63 and `V1` = 31. -/
def drawsCorner : State :=
  ((((fresh 0xD011).setIndex 0x300#16).memWrite 0x300 0x80#8).writeV 0x0#4 63#8).writeV 0x1#4 31#8

theorem test_hyp_DrawTogglesCoveredCellsAndReportsCollision :
    SpriteCovers drawsCorner 0x0#4 0x1#4 0x1#4 63#6 31#5 ∧
      ¬ SpriteCovers drawsCorner 0x0#4 0x1#4 0x0#4 63#6 31#5 ∧ (0xE#4 : Nibble) ≠ 0xF#4 := by
  refine ⟨⟨0, 0, by decide, by decide, by decide, by decide, by decide⟩, ?_, by decide⟩
  rintro ⟨r, _, h, _⟩
  exact absurd h (Nat.not_lt_zero r)
theorem test_hyp_DrawingTwiceRestoresTheBuffer : (0x0#4 : Nibble) ≠ 0xF#4 ∧ (0x1#4 : Nibble) ≠ 0xF#4 ∧
    ∃ t u, exec (.drw 0x0#4 0x1#4 0x1#4) drawsCorner = .next t ∧ exec (.drw 0x0#4 0x1#4 0x1#4) t = .next u ∧
      t.readV 0xF#4 = 0x00#8 :=
  ⟨by decide, by decide, _, _, rfl, rfl, by decide⟩
theorem test_hyp_ResetIsTotal : resetEdge.rst = true ∧
    ∃ t, t = clockEdge (zeroImage.set 0 0xF0#8) resetEdge haltedState := ⟨by decide, _, rfl⟩
/-- With the default image the last clause of ResetIsTotal is met too. -/
theorem test_hyp_ResetIsTotal_default : zeroImage = Vector.replicate 4096 0x00#8 := rfl
theorem test_hyp_LoadPortLaysOutTheProgram : (loadEdge 0#8).rst = false ∧ (loadEdge 0#8).stepEn = false ∧
    (loadEdge 0#8).ldEn = true ∧ State.reset.boot = true ∧ (0 < [0x12#8, 0x00#8].length ∧ [0x12#8, 0x00#8].length ≤ 0 + 4096) ∧
    (∀ i, i < [0x12#8, 0x00#8].length → 0x1FF % 4096 ≠ (State.reset.ldPtr.toNat + i) % 4096) := by
  refine ⟨by decide, by decide, by decide, by decide, by decide, fun i hi => ?_⟩
  have hi : i < 2 := hi
  have : State.reset.ldPtr.toNat = 0x200 := by decide
  omega
theorem test_hyp_LaunchStateHoldsImageAndProgram :
    (0 < [0x12#8, 0x00#8].length ∧ [0x12#8, 0x00#8].length ≤ 0 + 4096) ∧
      (0x1FF < 4096 ∧ ∀ i, i < [0x12#8, 0x00#8].length → 0x1FF ≠ (0x200 + i) % 4096) := by
  refine ⟨by decide, by decide, fun i hi => ?_⟩
  have hi : i < 2 := hi
  omega
theorem test_hyp_LoadPortIsIgnoredAfterTheFirstStep : (∃ t, step (fresh 0x00E0) = .next t) ∧
    (loadEdge 1#8).rst = false ∧ (loadEdge 1#8).stepEn = false := by
  refine ⟨?_, by decide, by decide⟩
  cases h : step (fresh 0x00E0) with
  | next t => exact ⟨t, rfl⟩
  | fault f =>
    have := test_cls_step_completes
    simp [afterStep, h] at this
  | refused r =>
    have := test_cls_step_completes
    simp [afterStep, h] at this
theorem test_hyp_StepKeepsTheInvariant : State.reset.Inv ∧ ∃ t, step State.reset = .next t := by
  refine ⟨⟨by decide, by decide, by decide, by decide, by decide, by decide,
    fun j hj => absurd hj (Nat.not_lt_zero _), rfl⟩, ?_⟩
  cases h : step State.reset with
  | next t => exact ⟨t, rfl⟩
  | fault f =>
    have := test_reset_step_completes
    simp [afterStep, h] at this
  | refused r =>
    have := test_reset_step_completes
    simp [afterStep, h] at this
theorem test_hyp_ClockEdgeKeepsTheInvariant : State.reset.Inv := test_hyp_StepKeepsTheInvariant.1

end Sys2Proof.Tests
end

section
/-! PROOFS. The family of spec/10_state.md: the stack (R25 to R27), what an instruction changes (R21, R22, R25, R31,
R59, R204), the sound timer (R29), reset (R40, R41, R230) and the invariant of reachable states (R39). Each group
goes from the state's operations over the instructions to the statements. -/

namespace Sys2Proof.Machine

variable {s t u : State} {ps : List Part}

/-! ### The invariant of reachable states, per operation (R39) -/

theorem State.Inv.writeV (h : s.Inv) {x : Nibble} {b : Byte} : (s.writeV x b).Inv := { h with }

theorem State.Inv.setFb (h : s.Inv) {g : FrameBuffer} : (s.setFb g).Inv := { h with }

theorem State.Inv.setDT (h : s.Inv) {b : Byte} : (s.setDT b).Inv := { h with }

theorem State.Inv.setST (h : s.Inv) {b : Byte} : (s.setST b).Inv := { h with }

theorem State.Inv.timerTick (h : s.Inv) : s.timerTick.Inv := { h with }

theorem State.Inv.present (h : s.Inv) {i : StepInput} : (s.present i).Inv := { h with }

theorem State.Inv.endStep (h : s.Inv) : s.endStep.Inv :=
  { h with bootNotHalted := fun hb => absurd hb (by simp) }

theorem State.Inv.setIndex (h : s.Inv) {w : Word} (hw : w.toNat < 4096) : (s.setIndex w).Inv :=
  { h with indexInMemory := hw }

theorem State.Inv.commitPc (h : s.Inv) {w : Word} : (s.commitPc w).Inv := { h with pcInMemory := wrapPc_lt w }

theorem State.Inv.advance (h : s.Inv) : s.advance.Inv := h.commitPc

theorem State.Inv.skipIf (h : s.Inv) {c : Bool} : (s.skipIf c).Inv := h.commitPc

theorem State.Inv.writeResultThenFlag (h : s.Inv) {x : Nibble} {b : Byte} {f : Bool} :
    (s.writeResultThenFlag x b f).Inv := h.writeV.writeV

theorem State.Inv.memWrite (h : s.Inv) {a : Nat} {b : Byte} : (s.memWrite a b).Inv :=
  { h with memoryCanonical := s.memWrite_wf a b h.memoryCanonical }

theorem State.Inv.memWriteBlock (h : s.Inv) {a : Nat} {f : Nat → Byte} (n : Nat) : (s.memWriteBlock a f n).Inv := by
  induction n with
  | zero => exact h
  | succ n ih => exact ih.memWrite

theorem State.Inv.loadRegs (h : s.Inv) (n : Nat) : (s.loadRegs n).Inv := by
  induction n with
  | zero => exact h
  | succ n ih => exact ih.writeV

theorem State.Inv.loadByte (h : s.Inv) {b : Byte} : (s.loadByte b).Inv :=
  { h with memoryCanonical := s.loadByte_wf b h.memoryCanonical }

/-- The fault fields agree after fault entry; that the boot phase ends in the same step keeps `bootNotHalted` (R231). -/
theorem State.Inv.raiseFault_endStep (h : s.Inv) {c : FaultCode} {w : Word} (hc : c ≠ .none) :
    (s.raiseFault c w).endStep.Inv :=
  { h with
    haltedIffFault := by simpa using hc
    overflowFlag := by simp
    underflowFlag := by simp
    bootNotHalted := by simp }

theorem State.Inv.push (h : s.Inv) {w : Word} (hlo : 2 ≤ w.toNat) (hhi : w.toNat ≤ 4097) (hp : s.push w = some t) :
    t.Inv := by
  rcases s.push_cases w with ⟨_, hn⟩ | ⟨hlt, hs⟩
  · simp [hn] at hp
  · obtain rfl := Option.some.inj (hs.symm.trans hp)
    refine { h with liveEntries := fun j hj => ?_ }
    have hj : j.val < s.sp.val + 1 := hj
    by_cases hjs : s.sp.val = j.val
    · simp [hjs, hlo, hhi]
    · simpa [Vector.getElem_set, hjs] using h.liveEntries j (by omega)

theorem State.Inv.pop (h : s.Inv) {w : Word} (hp : s.pop = some (w, t)) : t.Inv := by
  rcases s.pop_cases with ⟨_, hn⟩ | ⟨hpos, hs⟩
  · simp [hn] at hp
  · obtain ⟨-, rfl⟩ := Prod.mk.inj (Option.some.inj (hs.symm.trans hp))
    refine { h with liveEntries := fun j hj => h.liveEntries j ?_ }
    have hj : j.val < s.sp.val - 1 := hj
    omega

/-- The sum a call pushes unreduced does not overflow, so it lies between 2 and 4097 (R39, R122). -/
theorem returnAddress_toNat {pc : Word} (h : pc.toNat < 4096) : (pc + 2#16).toNat = pc.toNat + 2 := by
  bv_omega

theorem State.Inv.callTo_endStep (h : s.Inv) (nnn : Addr) : (s.callTo nnn).endStep.Inv := by
  rcases s.callTo_cases nnn with ⟨-, hc⟩ | ⟨t, hp, hc⟩ <;> rw [hc]
  · exact h.raiseFault_endStep (by decide)
  · have hpc := h.pcInMemory
    have hret := returnAddress_toNat hpc
    exact (h.push (by omega) (by omega) hp).commitPc.endStep

theorem State.Inv.returnFrom_endStep (h : s.Inv) : s.returnFrom.endStep.Inv := by
  rcases s.returnFrom_cases with ⟨-, hc⟩ | ⟨target, t, hp, hc⟩ <;> rw [hc]
  · exact h.raiseFault_endStep (by decide)
  · exact (h.pop hp).commitPc.endStep

theorem State.Inv.waitKey (h : s.Inv) (x : Nibble) (key : Option Nibble) : (s.waitKey x key).Inv := by
  rcases s.waitKey_cases x key with ⟨-, hk⟩ | ⟨k, -, hk⟩ <;> rw [hk]
  · exact h.commitPc
  · exact h.writeV.advance

/-! ### The invariant of reachable states, per step and clock edge -/

/-- An executed instruction, with the end of the step around it, keeps the invariant. -/
theorem exec_endStep_keeps_inv {i : Instr} (hs : s.Inv) (h : exec i s = .next t) : t.endStep.Inv := by
  have hs := hs.timerTick
  cases i <;> cases h
  case cls => exact hs.setFb.advance.endStep
  case ret => exact hs.returnFrom_endStep
  case call nnn => exact hs.callTo_endStep nnn
  case sys => exact hs.advance.endStep
  case jp | jpV0 => exact hs.commitPc.endStep
  case seImm | sneImm | seReg | sneReg | skp | sknp => exact hs.skipIf.endStep
  case ldImm | addImm | ldReg | orReg | andReg | xorReg | rnd | ldVxDT => exact hs.writeV.advance.endStep
  case addReg | subReg | shr | subnReg | shl => exact hs.writeResultThenFlag.advance.endStep
  case ldI nnn => exact (hs.setIndex (by rw [addrWord_toNat]; omega)).advance.endStep
  case ldFVx x => exact (hs.setIndex (by rw [glyphAddr_toNat]; omega)).advance.endStep
  case drw => exact hs.setFb.writeV.advance.endStep
  case ldVxK => exact (hs.waitKey _ _).endStep
  case ldDTVx => exact hs.setDT.advance.endStep
  case ldSTVx => exact hs.setST.advance.endStep
  case ldBVx | ldMemVx => exact (hs.memWriteBlock _).advance.endStep
  case ldVxMem => exact (hs.loadRegs _).advance.endStep

/-- Settles O59: a step raises InvalidInstruction or executes the decoded instruction, and both keep the invariant. -/
theorem stepKeepsTheInvariant : Obligations.StepKeepsTheInvariant := by
  unfold Obligations.StepKeepsTheInvariant
  intro s t hs h
  obtain ⟨-, ⟨raw, -, rfl⟩ | ⟨i, u, -, hu, rfl⟩⟩ := step_cases h
  · exact hs.raiseFault_endStep (by decide)
  · exact exec_endStep_keeps_inv hs hu

/-- Settles O58: the live entries are none, the rest are the values of R40. -/
theorem invariantHoldsAtReset : Obligations.InvariantHoldsAtReset where
  pcInMemory := by decide
  indexInMemory := by decide
  haltedIffFault := by decide
  overflowFlag := by decide
  underflowFlag := by decide
  bootNotHalted := fun _ => rfl
  liveEntries := fun _ hj => absurd hj (Nat.not_lt_zero _)
  memoryCanonical := State.reset_memory_wf

theorem State.applyReset_inv (image : Vector Byte 4096) (s : State) : (s.applyReset image).Inv :=
  { invariantHoldsAtReset with memoryCanonical := Memory.ofImage_wf image }

/-- Settles O60, by what a clock edge can do: reset, a step, a byte of the program load, or nothing. -/
theorem clockEdgeKeepsTheInvariant : Obligations.ClockEdgeKeepsTheInvariant := by
  unfold Obligations.ClockEdgeKeepsTheInvariant
  intro image e s hs
  rcases clockEdge_cases image e s with ⟨-, h⟩ | ⟨-, -, h⟩ | ⟨-, -, -, -, h⟩ | ⟨-, -, -, h⟩ <;> rw [h]
  · exact s.applyReset_inv image
  · rcases s.stepEdge_cases { key := pendingKey e, rnd := e.rnd } with ⟨-, hk⟩ | ⟨-, hstep⟩
    · rw [hk]
      exact hs
    · exact stepKeepsTheInvariant _ _ hs.present hstep
  · exact hs.loadByte
  · exact hs

/-! ### The stack (R25 to R27) -/

theorem Unchanged.refl (s : State) (p : Part) : Unchanged s s p := by
  cases p <;> simp [Unchanged]

/-- A state that differs in its stack fields alone. -/
theorem unchanged_of_stackFields (s : State) (stack : Vector Word 12) (sp : Fin 13) {p : Part} (hp : p ≠ .stack) :
    Unchanged s { s with stack := stack, sp := sp } p := by
  cases p with
  | stack => exact absurd rfl hp
  | registers | memory => exact fun _ => rfl
  | frameBuffer => exact fun _ _ => rfl
  | index | pc | delayTimer | soundTimer => rfl
  | faultState => exact ⟨rfl, rfl, rfl, rfl, rfl⟩
  | loadPort | environment => exact ⟨rfl, rfl⟩

/-- Settles O26, by whether the pointer is at 12. -/
theorem pushStoresOrOverflows : Obligations.PushStoresOrOverflows := by
  unfold Obligations.PushStoresOrOverflows
  refine fun s w => ⟨s.push_of_full w, fun hsp => ?_⟩
  have hlt : s.sp.val < 12 := by omega
  refine ⟨_, s.push_of_lt w hlt, rfl, fun j => ?_, fun p hp => unchanged_of_stackFields s _ _ hp⟩
  simp [Vector.getElem_set, eq_comm]

/-- Settles O27, by whether the pointer is at 0. -/
theorem popAnswersOrUnderflows : Obligations.PopAnswersOrUnderflows := by
  unfold Obligations.PopAnswersOrUnderflows
  refine fun s => ⟨s.pop_of_empty, fun j hj => ?_⟩
  have hpop := s.pop_of_pos (by omega)
  simp only [hj, Nat.add_sub_cancel] at hpop
  exact ⟨_, hpop, rfl, fun k => rfl, fun p hp => unchanged_of_stackFields s _ _ hp⟩

/-- Two states have the same live entries: the same pointer and the same entries below it (R25). -/
def State.SameLiveStack (s u : State) : Prop :=
  u.sp = s.sp ∧ ∀ j : Fin 12, j.val < s.sp.val → u.stack[j] = s.stack[j]

theorem State.SameLiveStack.refl (s : State) : s.SameLiveStack s := ⟨rfl, fun _ _ => rfl⟩

/-- A pop from the live entries a push left answers the pushed value and leaves those of before the push. -/
theorem State.SameLiveStack.pop_of_push {w : Word} (hp : s.push w = some t) (h : t.SameLiveStack u) :
    ∃ u', u.pop = some (w, u') ∧ s.SameLiveStack u' := by
  obtain ⟨hfull, hpush⟩ := pushStoresOrOverflows s w
  have hsp : s.sp.val ≠ 12 := fun h12 => by simp [hfull h12] at hp
  obtain ⟨t', ht', htsp, htstack, -⟩ := hpush hsp
  obtain rfl := Option.some.inj (hp.symm.trans ht')
  obtain ⟨husp, hustack⟩ := h
  have hlt : s.sp.val < 12 := by omega
  obtain ⟨u', hpop, husp', hustack', -⟩ := (popAnswersOrUnderflows u).2 ⟨s.sp.val, hlt⟩ (by rw [husp, htsp])
  have htop : u.stack[(⟨s.sp.val, hlt⟩ : Fin 12)] = w := by
    rw [hustack _ (by simp [htsp]), htstack, if_pos rfl]
  refine ⟨u', by rw [hpop, htop], Fin.ext husp', fun j hj => ?_⟩
  rw [hustack', hustack j (by omega), htstack, if_neg (by omega)]

theorem popMany_succ {n : Nat} {w : Word} {ws : List Word} (h : popMany n t = some (ws, u)) {u' : State}
    (hu : u.pop = some (w, u')) : popMany (n + 1) t = some (ws ++ [w], u') := by
  induction n generalizing t ws with
  | zero =>
    simp only [popMany, Option.some.injEq, Prod.mk.injEq] at h
    obtain ⟨rfl, rfl⟩ := h
    simp [popMany, hu]
  | succ n ih =>
    rw [popMany] at h
    rcases htop : t.pop with _ | ⟨v, t'⟩
    · simp [htop] at h
    rcases hrest : popMany n t' with _ | ⟨vs, u''⟩
    · simp [htop, hrest] at h
    simp only [htop, hrest, Option.some.injEq, Prod.mk.injEq] at h
    obtain ⟨rfl, rfl⟩ := h
    rw [popMany, htop]
    simp [ih hrest]

/-- Pushes that fit and as many pops answer the pushed values in reverse and leave the live entries of the start. -/
theorem State.popMany_of_pushes (ws : List Word) (s : State) (hfit : s.sp.val + ws.length ≤ 12) :
    ∃ t u, ws.foldlM State.push s = some t ∧ t.sp.val = s.sp.val + ws.length ∧
      popMany ws.length t = some (ws.reverse, u) ∧ s.SameLiveStack u := by
  induction ws generalizing s with
  | nil => exact ⟨s, s, rfl, rfl, rfl, .refl s⟩
  | cons w ws ih =>
    simp only [List.length_cons] at hfit
    obtain ⟨s', hpush, hsp', -, -⟩ := (pushStoresOrOverflows s w).2 (by omega)
    obtain ⟨t, u, hfold, hsp, hpops, hlive⟩ := ih s' (by omega)
    obtain ⟨u', hpop, hlive'⟩ := hlive.pop_of_push hpush
    refine ⟨t, u', ?_, ?_, ?_, hlive'⟩
    · simp [List.foldlM_cons, hpush, hfold]
    · rw [hsp, hsp', List.length_cons]
      omega
    · rw [List.length_cons, List.reverse_cons, popMany_succ hpops hpop]

/-- Settles O28, from the induction over the pushed values. -/
theorem stackIsLastInFirstOut : Obligations.StackIsLastInFirstOut := by
  unfold Obligations.StackIsLastInFirstOut
  intro s ws hfit
  obtain ⟨t, u, hfold, hsp, hpops, husp, -⟩ := State.popMany_of_pushes ws s hfit
  refine ⟨t, u, hfold, hpops, husp, fun h12 w => t.push_of_full w (hsp.trans h12), fun h0 => ?_⟩
  exact u.pop_of_empty (by rw [husp, h0])

/-! ### Reset (R40, R41, R230) -/

/-- Settles O54: a reset edge is `applyReset`, whose memory reads as the image. -/
theorem resetIsTotal : Obligations.ResetIsTotal := by
  unfold Obligations.ResetIsTotal
  intro image s t e hrst ht
  have hreset : clockEdge image e s = s.applyReset image := by simp [clockEdge, hrst]
  rw [hreset] at ht
  subst ht
  refine ⟨fun r => ?_, rfl, rfl, rfl, fun j => ?_, rfl, rfl, fbGet_fbClear, fun a ha => ?_, rfl, rfl, rfl, ?_⟩
  · simp [State.readV, State.reset]
  · simp [State.reset]
  · exact (State.memRead_resetWith image a).trans (by simp [Nat.mod_eq_of_lt ha])
  · rintro rfl
    rw [State.applyReset, State.resetWith_zero]

/-! ### What an operation and an instruction change (R21, R22, R25, R31, R59, R204) -/

theorem OnlyChanges.refl (ps : List Part) (s : State) : OnlyChanges ps s s := fun p _ => Unchanged.refl s p

theorem Unchanged.trans {p : Part} (h : Unchanged s t p) (h' : Unchanged t u p) : Unchanged s u p := by
  cases p <;> simp_all [Unchanged]

/-- An operation that changes one listed part extends a run of changes within the listed parts. -/
theorem OnlyChanges.step {q : Part} (h : OnlyChanges ps s t) (hq : q ∈ ps)
    (hop : ∀ p, p ≠ q → Unchanged t u p) : OnlyChanges ps s u :=
  fun p hp => (h p hp).trans (hop p (fun e => hp (e ▸ hq)))

theorem OnlyChanges.commitPc (h : OnlyChanges ps s t) {w : Word} (hpc : .pc ∈ ps := by simp) :
    OnlyChanges ps s (t.commitPc w) :=
  h.step hpc (fun p hp => by cases p <;> simp_all [Unchanged])

theorem OnlyChanges.advance (h : OnlyChanges ps s t) (hpc : .pc ∈ ps := by simp) : OnlyChanges ps s t.advance :=
  h.commitPc hpc

theorem OnlyChanges.skipIf (h : OnlyChanges ps s t) {c : Bool} (hpc : .pc ∈ ps := by simp) :
    OnlyChanges ps s (t.skipIf c) := h.commitPc hpc

theorem OnlyChanges.setDT (h : OnlyChanges ps s t) {b : Byte} (hd : .delayTimer ∈ ps := by simp) :
    OnlyChanges ps s (t.setDT b) :=
  h.step hd (fun p hp => by cases p <;> simp_all [Unchanged])

theorem OnlyChanges.setST (h : OnlyChanges ps s t) {b : Byte} (hs : .soundTimer ∈ ps := by simp) :
    OnlyChanges ps s (t.setST b) :=
  h.step hs (fun p hp => by cases p <;> simp_all [Unchanged])

theorem OnlyChanges.timerTick (h : OnlyChanges ps s t) (hd : .delayTimer ∈ ps := by simp)
    (hs : .soundTimer ∈ ps := by simp) : OnlyChanges ps s t.timerTick :=
  (h.setDT (b := tickDown t.dt) hd).setST (b := tickDown t.st) hs

theorem OnlyChanges.writeV (h : OnlyChanges ps s t) {x : Nibble} {b : Byte}
    (hv : .registers ∈ ps := by simp [changedParts]) : OnlyChanges ps s (t.writeV x b) :=
  h.step hv (fun p hp => by cases p <;> simp_all [Unchanged])

theorem OnlyChanges.writeResultThenFlag (h : OnlyChanges ps s t) {x : Nibble} {b : Byte} {f : Bool}
    (hv : .registers ∈ ps := by simp [changedParts]) : OnlyChanges ps s (t.writeResultThenFlag x b f) :=
  (h.writeV hv).writeV hv

theorem OnlyChanges.loadRegs (h : OnlyChanges ps s t) (n : Nat) (hv : .registers ∈ ps := by simp [changedParts]) :
    OnlyChanges ps s (t.loadRegs n) := by
  induction n with
  | zero => exact h
  | succ n ih => exact ih.writeV hv

theorem OnlyChanges.setIndex (h : OnlyChanges ps s t) {w : Word} (hi : .index ∈ ps := by simp [changedParts]) :
    OnlyChanges ps s (t.setIndex w) :=
  h.step hi (fun p hp => by cases p <;> simp_all [Unchanged])

theorem OnlyChanges.setFb (h : OnlyChanges ps s t) {g : FrameBuffer}
    (hf : .frameBuffer ∈ ps := by simp [changedParts]) : OnlyChanges ps s (t.setFb g) :=
  h.step hf (fun p hp => by cases p <;> simp_all [Unchanged])

theorem OnlyChanges.memWrite (h : OnlyChanges ps s t) {a : Nat} {b : Byte} (hm : .memory ∈ ps) :
    OnlyChanges ps s (t.memWrite a b) :=
  h.step hm (fun p hp => by cases p <;> simp_all [Unchanged])

theorem OnlyChanges.memWriteBlock (h : OnlyChanges ps s t) {a : Nat} {f : Nat → Byte} (n : Nat)
    (hm : .memory ∈ ps := by simp [changedParts]) : OnlyChanges ps s (t.memWriteBlock a f n) := by
  induction n with
  | zero => exact h
  | succ n ih => exact ih.memWrite hm

theorem OnlyChanges.raiseFault (h : OnlyChanges ps s t) {c : FaultCode} {w : Word} (hf : .faultState ∈ ps) :
    OnlyChanges ps s (t.raiseFault c w) :=
  h.step hf (fun p hp => by cases p <;> simp_all [Unchanged])

theorem OnlyChanges.push (h : OnlyChanges ps s t) {w : Word} (hk : .stack ∈ ps) (hp : t.push w = some u) :
    OnlyChanges ps s u := by
  rcases t.push_cases w with ⟨-, hn⟩ | ⟨hlt, hs⟩
  · simp [hn] at hp
  · obtain rfl := Option.some.inj (hs.symm.trans hp)
    exact h.step hk (fun p hp => unchanged_of_stackFields t _ _ hp)

theorem OnlyChanges.pop (h : OnlyChanges ps s t) {w : Word} (hk : .stack ∈ ps) (hp : t.pop = some (w, u)) :
    OnlyChanges ps s u := by
  rcases t.pop_cases with ⟨-, hn⟩ | ⟨hpos, hs⟩
  · simp [hn] at hp
  · obtain ⟨-, rfl⟩ := Prod.mk.inj (Option.some.inj (hs.symm.trans hp))
    exact h.step hk (fun p hp => unchanged_of_stackFields t _ _ hp)

theorem OnlyChanges.callTo (h : OnlyChanges ps s t) (nnn : Addr) (hpc : .pc ∈ ps := by simp)
    (hk : .stack ∈ ps := by simp [changedParts]) (hf : .faultState ∈ ps := by simp [changedParts]) :
    OnlyChanges ps s (t.callTo nnn) := by
  rcases t.callTo_cases nnn with ⟨-, hc⟩ | ⟨u, hp, hc⟩ <;> rw [hc]
  · exact h.raiseFault hf
  · exact (h.push hk hp).commitPc hpc

theorem OnlyChanges.returnFrom (h : OnlyChanges ps s t) (hpc : .pc ∈ ps := by simp)
    (hk : .stack ∈ ps := by simp [changedParts]) (hf : .faultState ∈ ps := by simp [changedParts]) :
    OnlyChanges ps s t.returnFrom := by
  rcases t.returnFrom_cases with ⟨-, hc⟩ | ⟨target, u, hp, hc⟩ <;> rw [hc]
  · exact h.raiseFault hf
  · exact (h.pop hk hp).commitPc hpc

theorem OnlyChanges.waitKey (h : OnlyChanges ps s t) (x : Nibble) (key : Option Nibble) (hpc : .pc ∈ ps := by simp)
    (hv : .registers ∈ ps := by simp [changedParts]) : OnlyChanges ps s (t.waitKey x key) := by
  rcases t.waitKey_cases x key with ⟨-, hk⟩ | ⟨k, -, hk⟩ <;> rw [hk]
  · exact h.commitPc hpc
  · exact (h.writeV hv).advance hpc

theorem exec_onlyChanges {i : Instr} (h : exec i s = .next t) :
    OnlyChanges (.pc :: .delayTimer :: .soundTimer :: changedParts i) s t := by
  have hs := (OnlyChanges.refl (.pc :: .delayTimer :: .soundTimer :: changedParts i) s).timerTick
  cases i <;> cases h
  case cls => exact hs.setFb.advance
  case ret => exact hs.returnFrom
  case call nnn => exact hs.callTo nnn
  case sys => exact hs.advance
  case jp | jpV0 => exact hs.commitPc
  case seImm | sneImm | seReg | sneReg | skp | sknp => exact hs.skipIf
  case ldImm | addImm | ldReg | orReg | andReg | xorReg | rnd | ldVxDT => exact hs.writeV.advance
  case addReg | subReg | shr | subnReg | shl => exact hs.writeResultThenFlag.advance
  case ldI | ldFVx => exact hs.setIndex.advance
  case drw => exact hs.setFb.writeV.advance
  case ldVxK => exact hs.waitKey _ _
  case ldDTVx => exact hs.setDT.advance
  case ldSTVx => exact hs.setST.advance
  case ldBVx | ldMemVx => exact (hs.memWriteBlock _).advance
  case ldVxMem => exact (hs.loadRegs _).advance

theorem State.readV_waitKey_other (s : State) {x r : Nibble} (key : Option Nibble) (h : r ≠ x) :
    (s.waitKey x key).readV r = s.readV r := by
  rcases s.waitKey_cases x key with ⟨-, hk⟩ | ⟨k, -, hk⟩ <;> rw [hk]
  · rfl
  · exact s.readV_writeV_other x r _ h

theorem State.readV_writeResultThenFlag_other (s : State) {x r : Nibble} (b : Byte) (f : Bool)
    (h : ¬(r = x ∨ r = flagReg)) : (s.writeResultThenFlag x b f).readV r = s.readV r := by
  obtain ⟨hx, hf⟩ := not_or.mp h
  rw [State.readV_writeResultThenFlag, if_neg hf, if_neg hx]

/-- A register that R21 does not list for the instruction reads as before. -/
theorem exec_keeps_unlisted_register {i : Instr} {r : Nibble} (h : exec i s = .next t)
    (hr : writesRegister i r = false) : t.readV r = s.readV r := by
  cases i
  case cls | ret | sys | jp | jpV0 | call | seImm | sneImm | seReg | sneReg | skp | sknp | ldI | ldFVx | ldDTVx
      | ldSTVx | ldBVx | ldMemVx => exact exec_onlyChanges h .registers (by simp [changedParts]) r
  all_goals
    replace hr := of_decide_eq_false hr
    cases h
  case ldImm | addImm | ldReg | orReg | andReg | xorReg | rnd | ldVxDT =>
    exact s.timerTick.readV_writeV_other _ r _ hr
  case addReg | subReg | shr | subnReg | shl => exact s.timerTick.readV_writeResultThenFlag_other _ _ hr
  case drw => exact State.readV_writeV_other _ flagReg r _ hr
  case ldVxK => exact s.timerTick.readV_waitKey_other _ hr
  case ldVxMem x =>
    have hload := s.timerTick.readV_loadRegs (x.toNat + 1) (by omega) r
    rwa [if_neg (by omega)] at hload

/-- Settles O15: the parts first, then the registers that the parts leave open. -/
theorem instructionsChangeOnlyTheirParts : Obligations.InstructionsChangeOnlyTheirParts := by
  unfold Obligations.InstructionsChangeOnlyTheirParts
  exact fun i s t h => ⟨exec_onlyChanges h, fun r hr => exec_keeps_unlisted_register h hr⟩

/-! ### The sound timer (R29) -/

theorem State.memWriteBlock_setST (s : State) (b : Byte) (a : Nat) (f : Nat → Byte) (n : Nat) :
    (s.setST b).memWriteBlock a f n = (s.memWriteBlock a f n).setST b := by
  induction n with
  | zero => rfl
  | succ n ih =>
    rw [State.memWriteBlock, ih]
    rfl

theorem State.loadRegs_setST (s : State) (b : Byte) (n : Nat) :
    (s.setST b).loadRegs n = (s.loadRegs n).setST b := by
  induction n with
  | zero => rfl
  | succ n ih =>
    rw [State.loadRegs, ih]
    rfl

theorem State.push_setST (s : State) (b : Byte) (w : Word) :
    (s.setST b).push w = (s.push w).map (State.setST · b) := by
  rcases s.push_cases w with ⟨h, hp⟩ | ⟨h, hp⟩ <;> rw [hp]
  · exact (s.setST b).push_of_full w h
  · exact (s.setST b).push_of_lt w h

theorem State.pop_setST (s : State) (b : Byte) : (s.setST b).pop = s.pop.map (fun r => (r.1, r.2.setST b)) := by
  rcases s.pop_cases with ⟨h, hp⟩ | ⟨h, hp⟩ <;> rw [hp]
  · exact (s.setST b).pop_of_empty h
  · exact (s.setST b).pop_of_pos h

theorem State.callTo_setST (s : State) (b : Byte) (nnn : Addr) : (s.setST b).callTo nnn = (s.callTo nnn).setST b := by
  rw [State.callTo, State.callTo, State.push_setST, State.setST_pc]
  cases s.push (s.pc + 2#16) <;> rfl

theorem State.returnFrom_setST (s : State) (b : Byte) : (s.setST b).returnFrom = s.returnFrom.setST b := by
  rw [State.returnFrom, State.returnFrom, State.pop_setST]
  cases s.pop <;> rfl

theorem State.waitKey_setST (s : State) (b : Byte) (x : Nibble) (key : Option Nibble) :
    (s.setST b).waitKey x key = (s.waitKey x key).setST b := by
  cases key <;> rfl

/-- Every operation but LD ST,Vx's own write commutes with a write of the sound timer, which the tick lowers. -/
theorem exec_setST (i : Instr) (s : State) (b : Byte) :
    ∃ t b', exec i s = .next t ∧ exec i (s.setST b) = .next (t.setST b') := by
  cases i
  case ldSTVx x => exact ⟨_, s.readV x, rfl, rfl⟩
  case ret => exact ⟨_, tickDown b, rfl, congrArg _ (s.timerTick.returnFrom_setST _)⟩
  case call => exact ⟨_, tickDown b, rfl, congrArg _ (s.timerTick.callTo_setST _ _)⟩
  case ldVxK => exact ⟨_, tickDown b, rfl, congrArg _ (s.timerTick.waitKey_setST _ _ _)⟩
  case ldBVx | ldMemVx =>
    exact ⟨_, tickDown b, rfl,
      congrArg (Host.Outcome.next ∘ State.advance) (s.timerTick.memWriteBlock_setST _ _ _ _)⟩
  case ldVxMem =>
    exact ⟨_, tickDown b, rfl, congrArg (Host.Outcome.next ∘ State.advance) (s.timerTick.loadRegs_setST _ _)⟩
  all_goals exact ⟨_, tickDown b, rfl, rfl⟩

/-- Settles O18: writing `st` is `setST`, with which every instruction commutes. -/
theorem soundTimerIsNeverRead : Obligations.SoundTimerIsNeverRead := by
  unfold Obligations.SoundTimerIsNeverRead
  exact exec_setST

end Sys2Proof.Machine
end

section
/-! PROOFS. The family of spec/20_memory.md: the byte primitives (R51, R52) and the coherence of fetch with stores
(R53, R64). -/

namespace Sys2Proof.Machine

/-! ### The byte primitives (R51, R52) -/

/-- Settles O7: the read is a lookup at the wrapped address, and what a write does to it is `memRead_memWrite`. -/
theorem memoryReadsWhatWasWritten : Obligations.MemoryReadsWhatWasWritten := by
  unfold Obligations.MemoryReadsWhatWasWritten
  refine fun s addr b => ⟨rfl, fun a => ?_⟩
  rw [State.memRead_memWrite]
  exact if_congr eq_comm rfl rfl

/-! ### Fetch sees the stored bytes (R53, R64) -/

/-- Addresses that agree modulo the memory size reach the same byte (R51). -/
theorem State.memRead_congr (s : State) {a e : Nat} (h : a % 4096 = e % 4096) : s.memRead a = s.memRead e :=
  congrArg (Memory.lookup s.mem) h

theorem State.fetch_toNat (s : State) :
    s.fetch.toNat = (s.memRead s.pc.toNat).toNat * 256 + (s.memRead (s.pc.toNat + 1)).toNat :=
  wordOfBytes_toNat _ _

/-- Every byte of the block store reads back; its at most 16 addresses are distinct modulo 4096 (R66, R143). -/
theorem memRead_effAddr_of_exec_ldMemVx {x : Nibble} {s t : State} (h : exec (.ldMemVx x) s = .next t) {i : Nat}
    (hi : i ≤ x.toNat) : t.memRead (s.effAddr i) = s.readV (regOfNat i) := by
  cases h
  exact s.timerTick.memRead_memWriteBlock (s.effAddr 0) (fun i => s.readV (regOfNat i)) (x.toNat + 1) i (by omega)
    (by omega)

/-- Settles O10: the two fetched bytes are the stored bytes number `i` and `i + 1`. -/
theorem storedBytesAreFetchedNext : Obligations.StoredBytesAreFetchedNext := by
  unfold Obligations.StoredBytesAreFetchedNext
  intro x s t i hi h hpc
  have hpcNext : (t.pc.toNat + 1) % 4096 = s.effAddr (i + 1) % 4096 := Nat.ModEq.add_right 1 hpc
  have hhigh : t.memRead t.pc.toNat = s.readV (regOfNat i) :=
    (t.memRead_congr hpc).trans (memRead_effAddr_of_exec_ldMemVx h (by omega))
  have hlow : t.memRead (t.pc.toNat + 1) = s.readV (regOfNat (i + 1)) :=
    (t.memRead_congr hpcNext).trans (memRead_effAddr_of_exec_ldMemVx h (by omega))
  rw [t.fetch_toNat, hhigh, hlow]

end Sys2Proof.Machine
end

section
/-! PROOFS. The family of spec/30_encoding.md: encoding and decoding agree in both directions (R74, R84, R87), the
invalid words (R81), the opcode table (R87), the worked examples (R88) and decoding from bytes (R70). Words are
compared through their fields, as Laws/Decode states them. -/

namespace Sys2Proof

/-! ### A word from its fixed fields (R71, R72) -/

theorem formatA_of_op {w : Word} {op : Nibble} (hop : opOf w = op) : formatA op (nnnOf w) = w :=
  hop ▸ formatA_fields w

theorem formatXK_of_op_kk {w : Word} {op : Nibble} {kk : Byte} (hop : opOf w = op) (hkk : kkOf w = kk) :
    formatXK op (xOf w) kk = w :=
  hop ▸ hkk ▸ formatXK_fields w

theorem formatXYN_of_op_n {w : Word} {op n : Nibble} (hop : opOf w = op) (hn : nOf w = n) :
    formatXYN op (xOf w) (yOf w) n = w :=
  hop ▸ hn ▸ formatXYN_fields w

theorem formatA_inj_nnn {op : Nibble} {a b : Addr} : formatA op a = formatA op b ↔ a = b :=
  ⟨fun h => by simpa using congrArg nnnOf h, congrArg _⟩

/-- SYS is well formed when its word is neither that of CLS nor that of RET (R76). -/
theorem wfWith_sys_iff (subn : Bool) (nnn : Addr) :
    (Instr.sys nnn).wfWith subn = true ↔ encode (.sys nnn) ≠ 0x00E0#16 ∧ encode (.sys nnn) ≠ 0x00EE#16 := by
  have hcls : encode (.sys nnn) = 0x00E0#16 ↔ nnn = 0x0E0#12 := formatA_inj_nnn (op := 0x0#4) (b := 0x0E0#12)
  have hret : encode (.sys nnn) = 0x00EE#16 ↔ nnn = 0x0EE#12 := formatA_inj_nnn (op := 0x0#4) (b := 0x0EE#12)
  simp [Instr.wfWith, hcls, hret]

/-! ### Encoding then decoding (R74, R87) -/

theorem decodeZero_encode_sys {subn : Bool} {nnn : Addr} (h : (Instr.sys nnn).wfWith subn = true) :
    decodeZero (encode (.sys nnn)) = .ok (.sys nnn) := by
  obtain ⟨hcls, hret⟩ := (wfWith_sys_iff subn nnn).1 h
  have hnnn : nnnOf (encode (.sys nnn)) = nnn := nnnOf_formatA _ _
  rw [decodeZero, if_neg hcls, if_neg hret, hnnn]

/-- Settles O1: the top nibble of the word selects the branch of the tree, in which the fixed low nibble or byte
selects the row (R75, R77 to R80); the fields are the operands. -/
theorem encodedInstructionDecodesBack : Obligations.EncodedInstructionDecodesBack := by
  unfold Obligations.EncodedInstructionDecodesBack
  intro subn i hwf
  cases i
  case cls | ret => rfl
  case sys nnn => exact (decodeWith_op0 subn (opOf_formatA _ _)).trans (decodeZero_encode_sys hwf)
  case jp | call | ldI | jpV0 => simp [encode, decodeWith_op1, decodeWith_op2, decodeWith_opA, decodeWith_opB]
  case seImm | sneImm | ldImm | addImm | rnd =>
    simp [encode, decodeWith_op3, decodeWith_op4, decodeWith_op6, decodeWith_op7, decodeWith_opC]
  case drw => simp [encode, decodeWith_opD]
  case seReg => simp [encode, decodeWith_op5, decodeFive]
  case sneReg => simp [encode, decodeWith_op9, decodeNine]
  case ldReg | orReg | andReg | xorReg | addReg | subReg | shr | shl => simp [encode, decodeWith_op8, decodeEight]
  case subnReg =>
    have hsubn : subn = true := hwf
    simp [encode, decodeWith_op8, decodeEight, hsubn]
  case skp | sknp => simp [encode, decodeWith_opE, decodeE]
  case ldVxDT | ldVxK | ldDTVx | ldSTVx | ldFVx | ldBVx | ldMemVx | ldVxMem =>
    simp [encode, decodeWith_opF, decodeF]

/-! ### Decoding then encoding, per branch of the tree (R76 to R80) -/

/-- The word `w` is that of the instruction `i`, which is well formed for this `SUBN_PRESENT`. -/
def IsWordOf (subn : Bool) (w : Word) (i : Instr) : Prop := i.wfWith subn = true ∧ encode i = w

section

variable {subn : Bool} {w : Word} {i : Instr}

theorem isWordOf_of_decodeZero (hop : opOf w = 0x0#4) (h : decodeZero w = .ok i) : IsWordOf subn w i := by
  have hsys : encode (.sys (nnnOf w)) = w := formatA_of_op hop
  unfold decodeZero at h
  split at h
  next hw => cases h; exact ⟨rfl, hw.symm⟩
  next hcls =>
    split at h
    next hw => cases h; exact ⟨rfl, hw.symm⟩
    next hret => cases h; exact ⟨(wfWith_sys_iff subn _).2 ⟨by rwa [hsys], by rwa [hsys]⟩, hsys⟩

theorem isWordOf_of_decodeFive (hop : opOf w = 0x5#4) (h : decodeFive w = .ok i) : IsWordOf subn w i := by
  unfold decodeFive at h
  split at h <;> cases h
  next hn => exact ⟨rfl, formatXYN_of_op_n hop hn⟩

theorem isWordOf_of_decodeEight (hop : opOf w = 0x8#4) (h : decodeEight subn w = .ok i) : IsWordOf subn w i := by
  unfold decodeEight at h
  split_ifs at h <;> cases h
  on_goal 8 => exact ⟨‹subn = true›, formatXYN_of_op_n hop ‹_›⟩
  all_goals exact ⟨rfl, formatXYN_of_op_n hop ‹_›⟩

theorem isWordOf_of_decodeNine (hop : opOf w = 0x9#4) (h : decodeNine w = .ok i) : IsWordOf subn w i := by
  unfold decodeNine at h
  split at h <;> cases h
  next hn => exact ⟨rfl, formatXYN_of_op_n hop hn⟩

theorem isWordOf_of_decodeE (hop : opOf w = 0xE#4) (h : decodeE w = .ok i) : IsWordOf subn w i := by
  unfold decodeE at h
  split_ifs at h <;> cases h
  all_goals exact ⟨rfl, formatXK_of_op_kk hop ‹_›⟩

theorem isWordOf_of_decodeF (hop : opOf w = 0xF#4) (h : decodeF w = .ok i) : IsWordOf subn w i := by
  unfold decodeF at h
  split_ifs at h <;> cases h
  all_goals exact ⟨rfl, formatXK_of_op_kk hop ‹_›⟩

/-- A word that decodes to an instruction is its word: in a branch that looks no further than the top nibble the
fields are the operands, the other branches are those above (R75). -/
theorem isWordOf_of_decodeWith (h : decodeWith subn w = .ok i) : IsWordOf subn w i := by
  rcases nibble_cases (opOf w) with
    hop | hop | hop | hop | hop | hop | hop | hop | hop | hop | hop | hop | hop | hop | hop | hop
  · exact isWordOf_of_decodeZero hop (decodeWith_op0 subn hop ▸ h)
  · cases (decodeWith_op1 subn hop).symm.trans h; exact ⟨rfl, formatA_of_op hop⟩
  · cases (decodeWith_op2 subn hop).symm.trans h; exact ⟨rfl, formatA_of_op hop⟩
  · cases (decodeWith_op3 subn hop).symm.trans h; exact ⟨rfl, formatXK_of_op_kk hop rfl⟩
  · cases (decodeWith_op4 subn hop).symm.trans h; exact ⟨rfl, formatXK_of_op_kk hop rfl⟩
  · exact isWordOf_of_decodeFive hop (decodeWith_op5 subn hop ▸ h)
  · cases (decodeWith_op6 subn hop).symm.trans h; exact ⟨rfl, formatXK_of_op_kk hop rfl⟩
  · cases (decodeWith_op7 subn hop).symm.trans h; exact ⟨rfl, formatXK_of_op_kk hop rfl⟩
  · exact isWordOf_of_decodeEight hop (decodeWith_op8 subn hop ▸ h)
  · exact isWordOf_of_decodeNine hop (decodeWith_op9 subn hop ▸ h)
  · cases (decodeWith_opA subn hop).symm.trans h; exact ⟨rfl, formatA_of_op hop⟩
  · cases (decodeWith_opB subn hop).symm.trans h; exact ⟨rfl, formatA_of_op hop⟩
  · cases (decodeWith_opC subn hop).symm.trans h; exact ⟨rfl, formatXK_of_op_kk hop rfl⟩
  · cases (decodeWith_opD subn hop).symm.trans h; exact ⟨rfl, formatXYN_of_op_n hop rfl⟩
  · exact isWordOf_of_decodeE hop (decodeWith_opE subn hop ▸ h)
  · exact isWordOf_of_decodeF hop (decodeWith_opF subn hop ▸ h)

end

/-- Settles O2: `IsWordOf` is the statement's conclusion, shown per branch of the decode tree. -/
theorem decodedWordEncodesBack : Obligations.DecodedWordEncodesBack := by
  unfold Obligations.DecodedWordEncodesBack
  exact fun subn w i h => isWordOf_of_decodeWith h

/-! ### The invalid words (R81) -/

section

variable (w raw : Word)

theorem decodeZero_ne_invalid : decodeZero w ≠ .invalid raw := by
  unfold decodeZero
  split_ifs <;> simp

theorem decodeFive_eq_invalid_iff : decodeFive w = .invalid raw ↔ w = raw ∧ nOf w ≠ 0x0#4 := by
  by_cases hn : nOf w = 0x0#4 <;> simp [decodeFive, hn]

/-- With SUBN present, the low nibbles 0 to 7 and E are used. -/
theorem decodeEight_eq_invalid_iff :
    decodeEight true w = .invalid raw ↔
      w = raw ∧ nOf w ∈ [0x8#4, 0x9#4, 0xA#4, 0xB#4, 0xC#4, 0xD#4, 0xF#4] := by
  rcases nibble_cases (nOf w) with
    hn | hn | hn | hn | hn | hn | hn | hn | hn | hn | hn | hn | hn | hn | hn | hn <;>
  simp [decodeEight, hn]

theorem decodeNine_eq_invalid_iff : decodeNine w = .invalid raw ↔ w = raw ∧ nOf w ≠ 0x0#4 := by
  by_cases hn : nOf w = 0x0#4 <;> simp [decodeNine, hn]

theorem decodeE_eq_invalid_iff : decodeE w = .invalid raw ↔ w = raw ∧ kkOf w ∉ [0x9E#8, 0xA1#8] := by
  unfold decodeE
  split_ifs <;> simp_all

theorem decodeF_eq_invalid_iff :
    decodeF w = .invalid raw ↔
      w = raw ∧ kkOf w ∉ [0x07#8, 0x0A#8, 0x15#8, 0x18#8, 0x29#8, 0x33#8, 0x55#8, 0x65#8] := by
  unfold decodeF
  split_ifs <;> simp_all

end

/-- The fields of the invalid words of R81's table, SUBN present. -/
def HasInvalidFields (w : Word) : Prop :=
  (opOf w = 0x5#4 ∧ nOf w ≠ 0x0#4) ∨
  (opOf w = 0x8#4 ∧ nOf w ∈ [0x8#4, 0x9#4, 0xA#4, 0xB#4, 0xC#4, 0xD#4, 0xF#4]) ∨
  (opOf w = 0x9#4 ∧ nOf w ≠ 0x0#4) ∨
  (opOf w = 0xE#4 ∧ kkOf w ∉ [0x9E#8, 0xA1#8]) ∨
  (opOf w = 0xF#4 ∧ kkOf w ∉ [0x07#8, 0x0A#8, 0x15#8, 0x18#8, 0x29#8, 0x33#8, 0x55#8, 0x65#8])

/-- An invalid signal carries the decoded word itself, and only the branches 5, 8, 9, E and F raise one. -/
theorem decode_eq_invalid_iff (w raw : Word) : decode w = .invalid raw ↔ w = raw ∧ HasInvalidFields w := by
  rcases nibble_cases (opOf w) with
    hop | hop | hop | hop | hop | hop | hop | hop | hop | hop | hop | hop | hop | hop | hop | hop <;>
  simp [HasInvalidFields, hop, decode, decodeWith, decodeZero_ne_invalid, decodeFive_eq_invalid_iff,
    decodeEight_eq_invalid_iff, decodeNine_eq_invalid_iff, decodeE_eq_invalid_iff, decodeF_eq_invalid_iff]

/-- Settles O3: the listed fields, read as numbers (R71). -/
theorem invalidWordsAreExactlyTheListedOnes : Obligations.InvalidWordsAreExactlyTheListedOnes := by
  unfold Obligations.InvalidWordsAreExactlyTheListedOnes
  refine fun w => ⟨?_, fun raw h => ((decode_eq_invalid_iff w raw).1 h).1.symm⟩
  simp [decode_eq_invalid_iff, HasInvalidFields, ← BitVec.toNat_inj, opOf_toNat, nOf_toNat, kkOf_toNat]

/-! ### The opcode table (R87) -/

open Laws.TableRow in
/-- The word of an instruction matches the instruction's row. -/
theorem encode_and_tableMask : (i : Instr) → encode i &&& tableMask i = tableMatch i
  | .cls => cls
  | .ret => ret
  | .sys nnn => sys nnn
  | .jp nnn => jp nnn
  | .call nnn => call nnn
  | .seImm x kk => seImm x kk
  | .sneImm x kk => sneImm x kk
  | .seReg x y => seReg x y
  | .ldImm x kk => ldImm x kk
  | .addImm x kk => addImm x kk
  | .ldReg x y => ldReg x y
  | .orReg x y => orReg x y
  | .andReg x y => andReg x y
  | .xorReg x y => xorReg x y
  | .addReg x y => addReg x y
  | .subReg x y => subReg x y
  | .shr x y => shr x y
  | .subnReg x y => subnReg x y
  | .shl x y => shl x y
  | .sneReg x y => sneReg x y
  | .ldI nnn => ldI nnn
  | .jpV0 nnn => jpV0 nnn
  | .rnd x kk => rnd x kk
  | .drw x y n => drw x y n
  | .skp x => skp x
  | .sknp x => sknp x
  | .ldVxDT x => ldVxDT x
  | .ldVxK x => ldVxK x
  | .ldDTVx x => ldDTVx x
  | .ldSTVx x => ldSTVx x
  | .ldFVx x => ldFVx x
  | .ldBVx x => ldBVx x
  | .ldMemVx x => ldMemVx x
  | .ldVxMem x => ldVxMem x

/-! A word whose masked bits are those of a format is a word of that format: the converse of the mask lemmas. -/

section

variable {w : Word} {op n : Nibble} {kk : Byte}

theorem formatA_of_mask (h : w &&& 0xF000#16 = formatA op 0#12) : formatA op (nnnOf w) = w := by
  rw [← formatA_fields w, formatA_mask] at h
  exact formatA_of_op (by simpa using congrArg opOf h)

theorem formatXK_of_mask_op (h : w &&& 0xF000#16 = formatXK op 0#4 0#8) : formatXK op (xOf w) (kkOf w) = w := by
  rw [← formatXK_fields w, formatXK_mask_op] at h
  exact formatXK_of_op_kk (by simpa using congrArg opOf h) rfl

theorem formatXK_of_mask_op_kk (h : w &&& 0xF0FF#16 = formatXK op 0#4 kk) : formatXK op (xOf w) kk = w := by
  rw [← formatXK_fields w, formatXK_mask_op_kk] at h
  exact formatXK_of_op_kk (by simpa using congrArg opOf h) (by simpa using congrArg kkOf h)

theorem formatXYN_of_mask_op (h : w &&& 0xF000#16 = formatXYN op 0#4 0#4 0#4) :
    formatXYN op (xOf w) (yOf w) (nOf w) = w := by
  rw [← formatXYN_fields w, formatXYN_mask_op] at h
  exact formatXYN_of_op_n (by simpa using congrArg opOf h) rfl

theorem formatXYN_of_mask_op_n (h : w &&& 0xF00F#16 = formatXYN op 0#4 0#4 n) :
    formatXYN op (xOf w) (yOf w) n = w := by
  rw [← formatXYN_fields w, formatXYN_mask_op_n] at h
  exact formatXYN_of_op_n (by simpa using congrArg opOf h) (by simpa using congrArg nOf h)

end

/-- The instruction of the same row whose operands are the fields of `w`. -/
def Instr.withFieldsOf (w : Word) : Instr → Instr
  | .cls => .cls
  | .ret => .ret
  | .sys _ => .sys (nnnOf w)
  | .jp _ => .jp (nnnOf w)
  | .call _ => .call (nnnOf w)
  | .seImm _ _ => .seImm (xOf w) (kkOf w)
  | .sneImm _ _ => .sneImm (xOf w) (kkOf w)
  | .seReg _ _ => .seReg (xOf w) (yOf w)
  | .ldImm _ _ => .ldImm (xOf w) (kkOf w)
  | .addImm _ _ => .addImm (xOf w) (kkOf w)
  | .ldReg _ _ => .ldReg (xOf w) (yOf w)
  | .orReg _ _ => .orReg (xOf w) (yOf w)
  | .andReg _ _ => .andReg (xOf w) (yOf w)
  | .xorReg _ _ => .xorReg (xOf w) (yOf w)
  | .addReg _ _ => .addReg (xOf w) (yOf w)
  | .subReg _ _ => .subReg (xOf w) (yOf w)
  | .shr _ _ => .shr (xOf w) (yOf w)
  | .subnReg _ _ => .subnReg (xOf w) (yOf w)
  | .shl _ _ => .shl (xOf w) (yOf w)
  | .sneReg _ _ => .sneReg (xOf w) (yOf w)
  | .ldI _ => .ldI (nnnOf w)
  | .jpV0 _ => .jpV0 (nnnOf w)
  | .rnd _ _ => .rnd (xOf w) (kkOf w)
  | .drw _ _ _ => .drw (xOf w) (yOf w) (nOf w)
  | .skp _ => .skp (xOf w)
  | .sknp _ => .sknp (xOf w)
  | .ldVxDT _ => .ldVxDT (xOf w)
  | .ldVxK _ => .ldVxK (xOf w)
  | .ldDTVx _ => .ldDTVx (xOf w)
  | .ldSTVx _ => .ldSTVx (xOf w)
  | .ldFVx _ => .ldFVx (xOf w)
  | .ldBVx _ => .ldBVx (xOf w)
  | .ldMemVx _ => .ldMemVx (xOf w)
  | .ldVxMem _ => .ldVxMem (xOf w)

@[simp] theorem tableMask_withFieldsOf (w : Word) (i : Instr) : tableMask (i.withFieldsOf w) = tableMask i := by
  cases i <;> rfl

@[simp] theorem tableMatch_withFieldsOf (w : Word) (i : Instr) : tableMatch (i.withFieldsOf w) = tableMatch i := by
  cases i <;> rfl

section

variable {w : Word} {i : Instr}

/-- A word that matches a row is the word of that row's instruction with the word's own fields: the mask leaves only
operand bits open. -/
theorem encode_withFieldsOf (h : w &&& tableMask i = tableMatch i) : encode (i.withFieldsOf w) = w := by
  cases i
  case cls | ret => exact h.symm.trans BitVec.and_allOnes
  case sys | jp | call | ldI | jpV0 => exact formatA_of_mask h
  case seImm | sneImm | ldImm | addImm | rnd => exact formatXK_of_mask_op h
  case drw => exact formatXYN_of_mask_op h
  case seReg | sneReg | ldReg | orReg | andReg | xorReg | addReg | subReg | shr | subnReg | shl =>
    exact formatXYN_of_mask_op_n h
  case skp | sknp | ldVxDT | ldVxK | ldDTVx | ldSTVx | ldFVx | ldBVx | ldMemVx | ldVxMem =>
    exact formatXK_of_mask_op_kk h

/-- That instruction is well formed on this hardware unless the row is SYS and the word that of CLS or RET (R76). -/
theorem wf_withFieldsOf (h : w &&& tableMask i = tableMatch i)
    (hsys : tableMatch i = 0x0000#16 → w ≠ 0x00E0#16 ∧ w ≠ 0x00EE#16) : (i.withFieldsOf w).wf = true := by
  cases i
  case sys nnn =>
    have henc : encode (.sys (nnnOf w)) = w := encode_withFieldsOf h
    exact (wfWith_sys_iff _ _).2 (henc.symm ▸ hsys rfl)
  all_goals rfl

end

/-- Settles O5: a decoded word is its instruction's word, which matches the row; a word that matches a row is the
word of an instruction of that row, so it decodes to it. -/
theorem wordMatchesItsTableRow : Obligations.WordMatchesItsTableRow := by
  unfold Obligations.WordMatchesItsTableRow
  refine ⟨fun w i h => ?_, fun w i h hsys => ⟨i.withFieldsOf w, ?_, ?_, ?_⟩⟩
  · obtain ⟨-, rfl⟩ := decodedWordEncodesBack _ w i h
    exact encode_and_tableMask i
  · have hdec := encodedInstructionDecodesBack _ _ (wf_withFieldsOf h hsys)
    rwa [encode_withFieldsOf h] at hdec
  · exact tableMask_withFieldsOf w i
  · exact tableMatch_withFieldsOf w i

/-! ### The worked examples and decoding from bytes (R88, R70) -/

/-- Settles O4: both words are closed, so the decode tree computes. -/
theorem workedExamplesDecode : Obligations.WorkedExamplesDecode := by
  unfold Obligations.WorkedExamplesDecode
  decide

theorem decodeBytes_of_ok {hi lo : Byte} {i : Instr} (rest : List Byte) (h : decode (wordOfBytes hi lo) = .ok i) :
    decodeBytes (hi :: lo :: rest) = .ok (i, rest) := by
  simp [decodeBytes, h]

theorem decodeBytes_of_invalid {hi lo : Byte} {raw : Word} (rest : List Byte)
    (h : decode (wordOfBytes hi lo) = .invalid raw) :
    decodeBytes (hi :: lo :: rest) = .error (.invalidInstruction raw) := by
  simp [decodeBytes, h]

/-- Settles O6: the two bytes put together are the encoded word, which decodes back. -/
theorem twoBytesDecodeBigEndian : Obligations.TwoBytesDecodeBigEndian := by
  unfold Obligations.TwoBytesDecodeBigEndian
  refine ⟨fun i rest hwf => ?_, fun hi lo rest w hw h => ?_⟩
  · refine decodeBytes_of_ok rest ?_
    rw [wordOfBytes_bytes]
    exact encodedInstructionDecodesBack _ i hwf
  · have hword : wordOfBytes hi lo = w := BitVec.eq_of_toNat_eq ((wordOfBytes_toNat hi lo).trans hw.symm)
    exact decodeBytes_of_invalid rest (by rw [hword, h])

end Sys2Proof
end

section
/-! PROOFS. The family of spec/40_cycle.md: fetch (R53, R101), one step and the clock edge around it (R100 to R102,
R108), the timers (R103), the inputs of a step (R107) and the key wait over its attempts (R111). -/

namespace Sys2Proof.Machine

variable {s t u : State} {ps : List Part}

/-! ### Fetch (R53, R101) -/

/-- Settles O9: the two bytes put together, each read at its own wrapped address. -/
theorem fetchIsBigEndianAndWraps : Obligations.FetchIsBigEndianAndWraps := by
  unfold Obligations.FetchIsBigEndianAndWraps
  exact fun s addr => ⟨wordOfBytes_toNat _ _, rfl⟩

/-- The fetched word depends on the bytes of memory and on `pc` modulo 4096 alone. -/
theorem fetch_congr (hmem : Unchanged s t .memory) (hpc : t.pc.toNat % 4096 = s.pc.toNat % 4096) :
    t.fetch = s.fetch := by
  have hhigh : t.memRead t.pc.toNat = s.memRead s.pc.toNat := (hmem _).trans (s.memRead_congr hpc)
  have hlow : t.memRead (t.pc.toNat + 1) = s.memRead (s.pc.toNat + 1) :=
    (hmem _).trans (s.memRead_congr (Nat.ModEq.add_right 1 hpc))
  rw [State.fetch, State.fetch, State.memReadWord, State.memReadWord, hhigh, hlow]

/-! ### One step (R100 to R102, R108) -/

theorem OnlyChanges.endStep (h : OnlyChanges ps s t) (hl : .loadPort ∈ ps := by simp)
    (he : .environment ∈ ps := by simp) : OnlyChanges ps s t.endStep :=
  fun p hp => (h p hp).trans (by cases p <;> simp_all [Unchanged])

/-- No instruction touches the script and the step counter: the end of the step does. -/
theorem exec_keeps_environment {i : Instr} (h : exec i s = .next t) : t.inputs = s.inputs ∧ t.steps = s.steps :=
  exec_onlyChanges h .environment (by cases i <;> simp [changedParts])

@[simp] theorem State.key_present (s : State) (i : StepInput) : (s.present i).key = i.key := rfl

@[simp] theorem State.rnd_present (s : State) (i : StepInput) : (s.present i).rnd = i.rnd := rfl

/-- Settles O11: the word at `pc` is the fetched word, and an edge's sample holds its pending key and random byte. -/
theorem stepRunsTheDecodedInstruction : Obligations.StepRunsTheDecodedInstruction := by
  unfold Obligations.StepRunsTheDecodedInstruction
  constructor
  · intro s w i hh hw hd
    have hfetch : s.fetch = w := BitVec.eq_of_toNat_eq (s.fetch_toNat.trans hw.symm)
    obtain ⟨t, ht⟩ := exec_answers_next i s
    obtain ⟨hinputs, hsteps⟩ := exec_keeps_environment ht
    refine ⟨t, ht, ?_⟩
    rw [step_of_exec hh (hfetch ▸ hd) ht, State.endStep, hinputs, hsteps]
  · intro image e s hh hr he
    exact ⟨pendingKey e, fun hk => by simp [pendingKey, hk], fun hk => by simp [pendingKey, hk], s.key_present _,
      s.rnd_present _, clockEdge_of_step image hr he hh⟩

/-- Settles O12: fetch raises the fault, and the signal carries the fetched word. -/
theorem invalidWordHaltsWithoutTick : Obligations.InvalidWordHaltsWithoutTick := by
  unfold Obligations.InvalidWordHaltsWithoutTick
  intro s raw hh hd
  obtain rfl : raw = s.fetch := (invalidWordsAreExactlyTheListedOnes s.fetch).2 raw hd
  have hframe : OnlyChanges [.faultState, .loadPort, .environment] s
      (s.raiseFault .invalidInstruction s.fetch).endStep :=
    ((OnlyChanges.refl _ s).raiseFault (by simp)).endStep
  exact ⟨_, step_of_invalid hh hd, ⟨rfl, rfl, rfl, by simp, by simp⟩, rfl, rfl, rfl, hframe⟩

/-! ### The timers (R103) -/

/-- What leaves both timers out of its changes leaves them as they were. -/
theorem OnlyChanges.timers (h : OnlyChanges ps s t) (hd : .delayTimer ∉ ps := by simp)
    (hs : .soundTimer ∉ ps := by simp) : t.dt = s.dt ∧ t.st = s.st := ⟨h .delayTimer hd, h .soundTimer hs⟩

/-- After an instruction each timer is the ticked one, but for the instruction that sets it (R103, R148, R149). -/
theorem exec_timers {i : Instr} (h : exec i s = .next t) :
    ((∀ x, i ≠ .ldDTVx x) → t.dt = tickDown s.dt) ∧ ((∀ x, i ≠ .ldSTVx x) → t.st = tickDown s.st) := by
  have hs := OnlyChanges.refl [.pc, .registers, .stack, .memory, .faultState] s.timerTick
  cases i <;> cases h
  case ldDTVx x => exact ⟨fun hx => absurd rfl (hx x), fun _ => rfl⟩
  case ldSTVx x => exact ⟨fun _ => rfl, fun hx => absurd rfl (hx x)⟩
  all_goals refine And.imp (fun hd _ => hd) (fun hs _ => hs) (?_ : _ = s.timerTick.dt ∧ _ = s.timerTick.st)
  case ret => exact hs.returnFrom.timers
  case call nnn => exact (hs.callTo nnn).timers
  case ldVxK => exact (hs.waitKey _ _).timers
  case ldBVx | ldMemVx => exact (hs.memWriteBlock _).advance.timers
  case ldVxMem => exact (hs.loadRegs _).advance.timers
  all_goals exact ⟨rfl, rfl⟩

/-- Settles O14: one tick lowers a timer by one, not below zero. -/
theorem everyInstructionTicksBothTimers : Obligations.EveryInstructionTicksBothTimers := by
  unfold Obligations.EveryInstructionTicksBothTimers
  intro i s
  obtain ⟨t, ht⟩ := exec_answers_next i s
  obtain ⟨hdt, hst⟩ := exec_timers ht
  refine ⟨t, ht, fun hi => ?_, fun hi => ?_⟩
  · rw [hdt hi, tickDown_toNat]
  · rw [hst hi, tickDown_toNat]

/-! ### The inputs of a step (R107) -/

/-- The state under another script and step counter (the model's own fields, log entry 1). -/
def State.setEnv (s : State) (inputs : List StepInput) (steps : Nat) : State :=
  { s with inputs := inputs, steps := steps }

section
variable (s) (ins : List StepInput) (n : Nat)

theorem State.memWriteBlock_setEnv (a : Nat) (f : Nat → Byte) (count : Nat) :
    (s.setEnv ins n).memWriteBlock a f count = (s.memWriteBlock a f count).setEnv ins n := by
  induction count with
  | zero => rfl
  | succ count ih =>
    rw [State.memWriteBlock, ih]
    rfl

theorem State.loadRegs_setEnv (count : Nat) :
    (s.setEnv ins n).loadRegs count = (s.loadRegs count).setEnv ins n := by
  induction count with
  | zero => rfl
  | succ count ih =>
    rw [State.loadRegs, ih]
    rfl

theorem State.callTo_setEnv (nnn : Addr) : (s.setEnv ins n).callTo nnn = (s.callTo nnn).setEnv ins n := by
  by_cases h : s.sp.val < 12 <;> simp [State.callTo, State.push, State.setEnv, State.commitPc, State.raiseFault, h]

theorem State.returnFrom_setEnv : (s.setEnv ins n).returnFrom = s.returnFrom.setEnv ins n := by
  by_cases h : 0 < s.sp.val <;> simp [State.returnFrom, State.pop, State.setEnv, State.commitPc, State.raiseFault, h]

theorem State.waitKey_setEnv (x : Nibble) (key : Option Nibble) :
    (s.setEnv ins n).waitKey x key = (s.waitKey x key).setEnv ins n := by
  cases key <;> rfl

end

/-- Every instruction commutes with a change of script and counter that keeps the input it reads. -/
theorem exec_setEnv {i : Instr} {ins : List StepInput} {n : Nat} (hkey : readsKey i → (s.setEnv ins n).key = s.key)
    (hrnd : readsRnd i → (s.setEnv ins n).rnd = s.rnd) (h : exec i s = .next t) :
    exec i (s.setEnv ins n) = .next (t.setEnv ins n) := by
  cases i <;> cases h
  case skp x | sknp x =>
    rw [← hkey (by simp [readsKey])]
    rfl
  case ldVxK x =>
    rw [← hkey (by simp [readsKey])]
    exact congrArg _ (s.timerTick.waitKey_setEnv ins n x _)
  case rnd x kk =>
    rw [← hrnd (by simp [readsRnd])]
    rfl
  case ret => exact congrArg _ (s.timerTick.returnFrom_setEnv ins n)
  case call nnn => exact congrArg _ (s.timerTick.callTo_setEnv ins n nnn)
  case ldBVx | ldMemVx =>
    exact congrArg (Host.Outcome.next ∘ State.advance) (s.timerTick.memWriteBlock_setEnv ins n _ _ _)
  case ldVxMem => exact congrArg (Host.Outcome.next ∘ State.advance) (s.timerTick.loadRegs_setEnv ins n _)
  all_goals rfl

/-- Settles O17: replacing the two fields is `setEnv`, with which every instruction commutes. -/
theorem inputsAreReadOnlyByTheirInstructions : Obligations.InputsAreReadOnlyByTheirInstructions := by
  unfold Obligations.InputsAreReadOnlyByTheirInstructions
  intro i s ins n hkey hrnd
  obtain ⟨t, ht⟩ := exec_answers_next i s
  exact ⟨t, ht, exec_setEnv hkey hrnd ht⟩

/-! ### The key wait over its attempts (R111, R151) -/

theorem run_succ_of_step (h : step s = .next t) (n : Nat) :
    Sys2Proof.core.run (n + 1) s = Sys2Proof.core.run n t := by
  have hc : Sys2Proof.core.step s = .next t := h
  simp only [Host.Core.run, hc]

/-- `t` is what `n` timer counts of a wait of LD Vx,K begun in `s` leave when its last attempt took the key `k` and
`rest` is the script after it. -/
structure KeyTaken (x k : Nibble) (rest : List StepInput) (n : Nat) (s t : State) : Prop where
  register : ∀ r, (t.readV r).toNat = if r = x then k.toNat else (s.readV r).toNat
  delayTimer : t.dt.toNat = s.dt.toNat - n
  soundTimer : t.st.toNat = s.st.toNat - n
  inputs : t.inputs = rest
  pc : PcBecomes (s.pc.toNat + 2) t
  frame : OnlyChanges [.registers, .pc, .delayTimer, .soundTimer, .loadPort, .environment] s t

/-- The state after an attempt that found no key (R151): the timers have ticked and `pc` stays. -/
def State.retryKey (s : State) : State := (s.timerTick.commitPc s.pc).endStep

/-- The state after the attempt that found the key `k` (R151). -/
def State.takeKey (s : State) (x k : Nibble) : State := (s.timerTick.writeV x (keyByte k)).advance.endStep

section
variable {x k : Nibble} {rest : List StepInput}

theorem step_of_noKey (hh : s.halted = false) (hd : decode s.fetch = .ok (.ldVxK x)) (hk : s.key = none) :
    step s = .next s.retryKey := by
  have he : exec (.ldVxK x) s = .next (s.timerTick.waitKey x s.key) := rfl
  rw [step_of_exec hh hd he, hk]
  rfl

theorem step_of_key (hh : s.halted = false) (hd : decode s.fetch = .ok (.ldVxK x)) (hk : s.key = some k) :
    step s = .next (s.takeKey x k) := by
  have he : exec (.ldVxK x) s = .next (s.timerTick.waitKey x s.key) := rfl
  rw [step_of_exec hh hd he, hk]
  rfl

theorem State.retryKey_pc_toNat (s : State) : s.retryKey.pc.toNat = s.pc.toNat % 4096 := wrapPc_toNat s.pc

theorem State.retryKey_onlyChanges (s : State) :
    OnlyChanges [.pc, .delayTimer, .soundTimer, .loadPort, .environment] s s.retryKey :=
  (OnlyChanges.refl _ s).timerTick.commitPc.endStep

/-- The attempt that finds no key leaves the same instruction to be fetched. -/
theorem State.fetch_retryKey (s : State) : s.retryKey.fetch = s.fetch :=
  fetch_congr (s.retryKey_onlyChanges .memory (by simp)) (by rw [s.retryKey_pc_toNat, Nat.mod_mod])

theorem keyTaken_takeKey (hi : s.inputs.tail = rest) : KeyTaken x k rest 1 s (s.takeKey x k) where
  register r := by
    have hr : (s.takeKey x k).readV r = if r = x then keyByte k else s.readV r := s.timerTick.readV_writeV x r _
    rw [hr]
    split <;> simp
  delayTimer := tickDown_toNat s.dt
  soundTimer := tickDown_toNat s.st
  inputs := hi
  pc := wrapPc_add_toNat s.pc 2
  frame := (OnlyChanges.refl _ s).timerTick.writeV.advance.endStep

/-- An attempt without a key before the rest of the wait costs one more timer count. -/
theorem KeyTaken.of_retryKey {n : Nat} (h : KeyTaken x k rest n s.retryKey t) : KeyTaken x k rest (n + 1) s t where
  register := h.register
  delayTimer := by
    have hd : s.retryKey.dt.toNat = s.dt.toNat - 1 := tickDown_toNat s.dt
    rw [h.delayTimer, hd]
    omega
  soundTimer := by
    have hs : s.retryKey.st.toNat = s.st.toNat - 1 := tickDown_toNat s.st
    rw [h.soundTimer, hs]
    omega
  inputs := h.inputs
  pc := by
    have hp : t.pc.toNat = (s.retryKey.pc.toNat + 2) % 4096 := h.pc
    rw [PcBecomes, hp, s.retryKey_pc_toNat, Nat.mod_add_mod]
  frame p hp := (s.retryKey_onlyChanges p (fun hq => hp (List.mem_cons_of_mem _ hq))).trans (h.frame p hp)

/-- By induction over the attempts without a key: each presents the same instruction again. -/
theorem run_keyWait {rnd : Byte} (before : List StepInput) (hnone : ∀ i ∈ before, i.key = none)
    (hh : s.halted = false) (hd : decode s.fetch = .ok (.ldVxK x))
    (hi : s.inputs = before ++ { key := some k, rnd := rnd } :: rest) :
    ∃ t, Sys2Proof.core.run (before.length + 1) s = .next t ∧ KeyTaken x k rest (before.length + 1) s t := by
  induction before generalizing s with
  | nil =>
    have hk : s.key = some k := by simp [State.key, State.sample, hi]
    exact ⟨_, run_succ_of_step (step_of_key hh hd hk) 0, keyTaken_takeKey (by simp [hi])⟩
  | cons i before ih =>
    have hk : s.key = none := by simp [State.key, State.sample, hi, hnone i]
    obtain ⟨t, hrun, ht⟩ := ih (s := s.retryKey) (fun j hj => hnone j (by simp [hj])) hh
      (by rw [s.fetch_retryKey, hd]) (by simp [State.retryKey, hi])
    exact ⟨t, (run_succ_of_step (step_of_noKey hh hd hk) _).trans hrun, ht.of_retryKey⟩

end

/-- Settles O41, from the induction over the attempts without a key. -/
theorem keyWaitSpansItsAttempts : Obligations.KeyWaitSpansItsAttempts := by
  unfold Obligations.KeyWaitSpansItsAttempts
  intro x k rnd before rest s hh hd hnone hi
  obtain ⟨t, hrun, ht⟩ := run_keyWait before hnone hh hd hi
  exact ⟨t, hrun, ht.register, ht.delayTimer, ht.soundTimer, ht.inputs, ht.pc, ht.frame⟩

end Sys2Proof.Machine
end

section
/-! PROOFS. The family of spec/41_control_flow.md: SYS (R124), JP and JP V0 (R120, R121), and CALL and RET, which jump
through the stack (R122, R123) or halt with its fault (R202, R203, R205). What an instruction that ends in a commit of
`pc` does comes first, then the statements, those of CALL and RET from one rule per outcome. -/

namespace Sys2Proof.Machine

variable {s t : State}

/-! ### The word of an instruction, its timers, its `pc` (R84, R103, R105) -/

theorem ofNat_eq_encode {i : Instr} {n : Nat} (h : (encode i).toNat = n) : BitVec.ofNat 16 n = encode i := by
  rw [← h, BitVec.ofNat_toNat, BitVec.setWidth_eq]

theorem decode_ofNat {i : Instr} {n : Nat} (hwf : i.wf = true) (h : (encode i).toNat = n) :
    decode (BitVec.ofNat 16 n) = .ok i := by
  rw [ofNat_eq_encode h]
  exact encodedInstructionDecodesBack _ i hwf

/-- The timers of `RunsAs`, for every instruction but the two that set one (R103). -/
theorem exec_timersTicked {i : Instr} (h : exec i s = .next t) (hd : ∀ x, i ≠ .ldDTVx x := by simp)
    (hs : ∀ x, i ≠ .ldSTVx x := by simp) : TimersTicked s t := by
  obtain ⟨hdt, hst⟩ := exec_timers h
  rw [TimersTicked, hdt hd, hst hs]
  exact ⟨tickDown_toNat _, tickDown_toNat _⟩

/-- An instruction that ends in a commit of `pc`: what comes before the commit says what changes (R103, R105). -/
theorem runsAs_of_commitPc {i : Instr} {ps : List Part} {w : Word} {next : Nat} {effect : State → Prop}
    (h : exec i s = .next (t.commitPc w)) (hframe : OnlyChanges (.pc :: .delayTimer :: .soundTimer :: ps) s t)
    (hnext : w.toNat % 4096 = next % 4096) (heffect : effect (t.commitPc w)) (hd : ∀ x, i ≠ .ldDTVx x := by simp)
    (hs : ∀ x, i ≠ .ldSTVx x := by simp) : RunsAs i s ps next effect :=
  ⟨_, h, exec_timersTicked h hd hs, (wrapPc_toNat w).trans hnext, hframe.commitPc, heffect⟩

/-- The sum of JP V0 is formed without truncation (R121). -/
theorem addrWord_add_byteWord_toNat (nnn : Addr) (b : Byte) :
    (addrWord nnn + byteWord b).toNat = nnn.toNat + b.toNat := by
  rw [BitVec.toNat_add, addrWord_toNat, byteWord_toNat]
  omega

/-! ### The jumps and SYS (R120, R121, R124) -/

/-- Settles O19: the word is the instruction's encoding, and its target is committed. -/
theorem jumpGoesToItsTarget : Obligations.JumpGoesToItsTarget := by
  unfold Obligations.JumpGoesToItsTarget
  intro nnn s
  exact ⟨decode_ofNat rfl (formatA_toNat _ _),
    runsAs_of_commitPc rfl (OnlyChanges.refl _ s).timerTick (congrArg (· % 4096) (addrWord_toNat nnn)) trivial⟩

/-- Settles O20: the unreduced sum of the target and `V[0]` is committed. -/
theorem indexedJumpAddsV0 : Obligations.IndexedJumpAddsV0 := by
  unfold Obligations.IndexedJumpAddsV0
  intro nnn s
  exact ⟨decode_ofNat rfl (formatA_toNat _ _),
    runsAs_of_commitPc rfl (OnlyChanges.refl _ s).timerTick
      (congrArg (· % 4096) (addrWord_add_byteWord_toNat nnn (s.readV 0x0#4))) trivial⟩

/-- Settles O25: without the words of CLS and RET the encoding is well formed, and the effect is `advance` alone. -/
theorem sysOnlyAdvances : Obligations.SysOnlyAdvances := by
  unfold Obligations.SysOnlyAdvances
  intro nnn s
  have hnext : (s.pc + 2#16).toNat % 4096 = (s.pc.toNat + 2) % 4096 :=
    (wrapPc_toNat _).symm.trans (wrapPc_add_toNat s.pc 2)
  refine ⟨fun hcls hret => decode_ofNat ?_ ?_,
    runsAs_of_commitPc rfl (OnlyChanges.refl _ s).timerTick hnext trivial⟩
  · simp [Instr.wfWith, hcls, hret]
  · exact (formatA_toNat 0x0#4 nnn).trans (Nat.zero_add _)

/-! ### Calls and returns through the stack (R122, R123) -/

theorem exec_call_of_push (nnn : Addr) (hp : s.timerTick.push (s.pc + 2#16) = some t) :
    exec (.call nnn) s = .next (t.commitPc (addrWord nnn)) := by
  have hcall : s.timerTick.callTo nnn = t.commitPc (addrWord nnn) := by simp [State.callTo, hp]
  exact congrArg _ hcall

theorem exec_ret_of_pop {target : Word} (hp : s.timerTick.pop = some (target, t)) :
    exec .ret s = .next (t.commitPc target) := by
  have hret : s.timerTick.returnFrom = t.commitPc target := by simp [State.returnFrom, hp]
  exact congrArg _ hret

/-- Settles O21, from what a push below the full depth stores (R26). -/
theorem callPushesReturnAddressAndJumps : Obligations.CallPushesReturnAddressAndJumps := by
  unfold Obligations.CallPushesReturnAddressAndJumps
  intro nnn s hlt
  have hfree : s.timerTick.sp.val ≠ 12 := Nat.ne_of_lt hlt
  obtain ⟨t, hpush, hsp, hstack, -⟩ := (pushStoresOrOverflows s.timerTick (s.pc + 2#16)).2 hfree
  refine runsAs_of_commitPc (exec_call_of_push nnn hpush) ((OnlyChanges.refl _ s).timerTick.push (by simp) hpush)
    (congrArg (· % 4096) (addrWord_toNat nnn)) ⟨hsp, fun j => ?_⟩
  have hentry : (t.commitPc (addrWord nnn)).stack[j] = if j.val = s.sp.val then s.pc + 2#16 else s.stack[j] := hstack j
  rw [hentry, apply_ite BitVec.toNat, BitVec.toNat_add]
  rfl

/-- Settles O23, from what a pop of a live entry answers (R27). -/
theorem returnPopsItsTarget : Obligations.ReturnPopsItsTarget := by
  unfold Obligations.ReturnPopsItsTarget
  intro s j hj
  obtain ⟨t, hpop, hsp, hstack, -⟩ := (popAnswersOrUnderflows s.timerTick).2 j hj
  exact runsAs_of_commitPc (exec_ret_of_pop hpop) ((OnlyChanges.refl _ s).timerTick.pop (by simp) hpop) rfl
    ⟨hsp, hstack⟩

/-! ### The stack faults (R202, R203, R205) -/

theorem State.faultEntered_raiseFault (s : State) (code : FaultCode) (w : Word) :
    FaultEntered code w (s.raiseFault code w) :=
  ⟨rfl, rfl, rfl, by simp, by simp⟩

/-- A fault after the tick changes the timers and the fault state alone, `pc` not among it (R205). -/
theorem State.timerTick_raiseFault_onlyChanges (s : State) (code : FaultCode) (w : Word) :
    OnlyChanges [.delayTimer, .soundTimer, .faultState] s (s.timerTick.raiseFault code w) :=
  (OnlyChanges.refl _ s).timerTick.raiseFault (by simp)

theorem exec_call_of_full (nnn : Addr) (h : s.sp.val = 12) :
    exec (.call nnn) s = .next (s.timerTick.raiseFault .stackOverflow (encode (.call nnn))) := by
  have hcall : s.timerTick.callTo nnn = s.timerTick.raiseFault .stackOverflow (encode (.call nnn)) := by
    rw [State.callTo, s.timerTick.push_of_full _ h]
  exact congrArg _ hcall

theorem exec_ret_of_empty (h : s.sp.val = 0) :
    exec .ret s = .next (s.timerTick.raiseFault .stackUnderflow (encode .ret)) := by
  have hret : s.timerTick.returnFrom = s.timerTick.raiseFault .stackUnderflow (encode .ret) := by
    rw [State.returnFrom, s.timerTick.pop_of_empty h]
  exact congrArg _ hret

/-- Settles O22: the push fails, and the fault records the CALL's word. -/
theorem callOnFullStackHalts : Obligations.CallOnFullStackHalts := by
  unfold Obligations.CallOnFullStackHalts
  intro nnn s h
  have hexec := exec_call_of_full nnn h
  have hword : BitVec.ofNat 16 (0x2000 + nnn.toNat) = encode (.call nnn) := ofNat_eq_encode (formatA_toNat _ _)
  rw [hword]
  exact ⟨_, hexec, State.faultEntered_raiseFault _ _ _, rfl, exec_timersTicked hexec,
    s.timerTick_raiseFault_onlyChanges _ _⟩

/-- Settles O24: the pop fails, and the fault records the RET's word. -/
theorem returnOnEmptyStackHalts : Obligations.ReturnOnEmptyStackHalts := by
  unfold Obligations.ReturnOnEmptyStackHalts
  intro s h
  have hexec := exec_ret_of_empty h
  exact ⟨_, hexec, State.faultEntered_raiseFault _ _ _, rfl, exec_timersTicked hexec,
    s.timerTick_raiseFault_onlyChanges _ _⟩

end Sys2Proof.Machine
end

section
/-! PROOFS. The family of spec/42_conditional_skip.md: SE and SNE on an immediate (R131, R132) and on two registers
(R133, R134), SKP and SKNP (R135, R136). All six end in `skipIf`; its two outcomes come first, then the words
and the key comparison the statements need. -/

namespace Sys2Proof.Machine

variable {s : State} {i : Instr} {c : Bool}

/-! ### What a conditional skip commits (R130, R105) -/

theorem skipTarget_toNat (w : Word) (c : Bool) :
    (if c then w + 4#16 else w + 2#16).toNat % 4096 = (if c then w.toNat + 4 else w.toNat + 2) % 4096 := by
  rw [← wrapPc_toNat]
  cases c
  · exact wrapPc_add_toNat w 2
  · exact wrapPc_add_toNat w 4

/-- An instruction that is a conditional skip: `c` selects how far `pc` moves, and nothing else happens (R130). -/
theorem runsAs_of_skipIf (h : exec i s = .next (s.timerTick.skipIf c)) (hd : ∀ x, i ≠ .ldDTVx x := by simp)
    (hs : ∀ x, i ≠ .ldSTVx x := by simp) :
    RunsAs i s [] (if c then s.pc.toNat + 4 else s.pc.toNat + 2) (fun _ => True) :=
  runsAs_of_commitPc h (OnlyChanges.refl _ s).timerTick (skipTarget_toNat s.pc c) trivial hd hs

section

variable {p : Prop} [Decidable p]

theorem runsAs_skip_if (h : exec i s = .next (s.timerTick.skipIf c)) (hc : c = true ↔ p)
    (hd : ∀ x, i ≠ .ldDTVx x := by simp) (hs : ∀ x, i ≠ .ldSTVx x := by simp) :
    RunsAs i s [] (if p then s.pc.toNat + 4 else s.pc.toNat + 2) (fun _ => True) := by
  rw [← if_congr hc rfl rfl]
  exact runsAs_of_skipIf h hd hs

theorem runsAs_skip_unless (h : exec i s = .next (s.timerTick.skipIf c)) (hc : c = true ↔ ¬ p)
    (hd : ∀ x, i ≠ .ldDTVx x := by simp) (hs : ∀ x, i ≠ .ldSTVx x := by simp) :
    RunsAs i s [] (if p then s.pc.toNat + 2 else s.pc.toNat + 4) (fun _ => True) := by
  rw [← ite_not]
  exact runsAs_skip_if h hc hd hs

end

/-! ### Comparisons of registers (R131 to R134) -/

/-- Settles O29: the words are the encodings, and the skip's condition is the comparison or its negation. -/
theorem immediateSkipsCompareOneRegister : Obligations.ImmediateSkipsCompareOneRegister := by
  unfold Obligations.ImmediateSkipsCompareOneRegister
  intro x kk s
  exact ⟨decode_ofNat rfl (formatXK_toNat _ _ _), runsAs_skip_if rfl decide_eq_true_iff,
    decode_ofNat rfl (formatXK_toNat _ _ _), runsAs_skip_unless rfl decide_eq_true_iff⟩

/-- The word of format `XYN` with low nibble `n`, from its number (R72). -/
theorem ofNat_eq_formatXYN (op x y : Nibble) {n : Nat} (hn : n < 16) :
    BitVec.ofNat 16 (op.toNat * 4096 + x.toNat * 256 + y.toNat * 16 + n) = formatXYN op x y (BitVec.ofNat 4 n) := by
  have hnibble : (BitVec.ofNat 4 n).toNat = n := Nat.mod_eq_of_lt hn
  apply BitVec.eq_of_toNat_eq
  rw [BitVec.toNat_ofNat, ← Nat.mod_eq_of_lt (formatXYN op x y (BitVec.ofNat 4 n)).isLt, formatXYN_toNat, hnibble]

/-- With top nibble 5 or 9 only the low nibble 0 is used (R78, R81). -/
theorem decode_ofNat_invalid {op : Nibble} (hop : op = 0x5#4 ∨ op = 0x9#4) (x y : Nibble) {n : Nat} (hpos : 0 < n)
    (hn : n < 16) :
    ∃ raw, decode (BitVec.ofNat 16 (op.toNat * 4096 + x.toNat * 256 + y.toNat * 16 + n)) = .invalid raw := by
  have hlow : BitVec.ofNat 4 n ≠ 0x0#4 := fun h =>
    hpos.ne' ((Nat.mod_eq_of_lt hn).symm.trans (congrArg BitVec.toNat h))
  have hfields : HasInvalidFields (formatXYN op x y (BitVec.ofNat 4 n)) := by
    rcases hop with rfl | rfl <;> simp [HasInvalidFields, hlow]
  rw [ofNat_eq_formatXYN op x y hn]
  exact ⟨_, (decode_eq_invalid_iff _ _).2 ⟨rfl, hfields⟩⟩

/-- Settles O30: as for the immediate forms, and a low nibble other than 0 is one of the listed invalid fields. -/
theorem registerSkipsCompareTwoRegisters : Obligations.RegisterSkipsCompareTwoRegisters := by
  unfold Obligations.RegisterSkipsCompareTwoRegisters
  intro x y s
  exact ⟨decode_ofNat rfl (formatXYN_toNat _ _ _ _), runsAs_skip_if rfl decide_eq_true_iff,
    decode_ofNat rfl (formatXYN_toNat _ _ _ _), runsAs_skip_unless rfl decide_eq_true_iff, fun n hpos hn =>
      ⟨decode_ofNat_invalid (.inl rfl) x y hpos hn, decode_ofNat_invalid (.inr rfl) x y hpos hn⟩⟩

/-! ### The pending key (R135, R136) -/

/-- The key's code is compared with the whole byte (D13). -/
theorem keyPressed_some_iff (k : Nibble) (b : Byte) : keyPressed (some k) b = true ↔ k.toNat = b.toNat := by
  rw [keyPressed, decide_eq_true_iff, ← BitVec.toNat_inj, keyByte_toNat]

theorem exec_skp_of_key {key : Option Nibble} (x : Nibble) (hk : s.key = key) :
    exec (.skp x) s = .next (s.timerTick.skipIf (keyPressed key (s.readV x))) := hk ▸ rfl

theorem exec_sknp_of_key {key : Option Nibble} (x : Nibble) (hk : s.key = key) :
    exec (.sknp x) s = .next (s.timerTick.skipIf (!keyPressed key (s.readV x))) := hk ▸ rfl

/-- Settles O31: without a key `keyPressed` is false, with one it is the comparison of the codes. -/
theorem keySkipsCompareTheWholeByte : Obligations.KeySkipsCompareTheWholeByte := by
  unfold Obligations.KeySkipsCompareTheWholeByte
  refine fun x s => ⟨fun hk => ?_, fun k hk => ?_⟩
  · exact ⟨runsAs_of_skipIf (exec_skp_of_key x hk), runsAs_of_skipIf (exec_sknp_of_key x hk)⟩
  · have hpressed := keyPressed_some_iff k (s.readV x)
    have hreleased : (!keyPressed (some k) (s.readV x)) = true ↔ ¬ k.toNat = (s.readV x).toNat := by
      rw [Bool.not_eq_true', ← Bool.not_eq_true, hpressed]
    exact ⟨runsAs_skip_if (exec_skp_of_key x hk) hpressed, runsAs_skip_unless (exec_sknp_of_key x hk) hreleased⟩

end Sys2Proof.Machine
end

section
/-! PROOFS. The family of spec/43_load.md: the loads into one register (R140, R141, R147) and into `I` (R142, R146), the
stores and loads of blocks (R143 to R145), the timer writes (R148, R149) and the key wait (R151). All but the retry of
the key wait end in `advance`; the rule for that end comes first, then one rule per written part. -/

namespace Sys2Proof.Machine

variable {s t : State} {i : Instr} {ps : List Part} {next : Nat} {effect effect' : State → Prop}

/-! ### Instructions that end in `advance` (R104) -/

theorem RunsAs.imp (h : RunsAs i s ps next effect) (himp : ∀ t, effect t → effect' t) :
    RunsAs i s ps next effect' := by
  obtain ⟨t, hexec, htimers, hpc, hframe, heffect⟩ := h
  exact ⟨t, hexec, htimers, hpc, hframe, himp t heffect⟩

/-- What comes before the advance leaves `pc` alone, so `pc` moves on by 2. -/
theorem runsAs_of_advance (h : exec i s = .next t.advance) (hframe : OnlyChanges (.delayTimer :: .soundTimer :: ps) s t)
    (heffect : effect t.advance) (hpc : .pc ∉ ps := by simp) (hd : ∀ x, i ≠ .ldDTVx x := by simp)
    (hs : ∀ x, i ≠ .ldSTVx x := by simp) : RunsAs i s ps (s.pc.toNat + 2) effect := by
  have hkept : t.pc = s.pc := hframe .pc (by simp [hpc])
  have hnext : (t.pc + 2#16).toNat % 4096 = (s.pc.toNat + 2) % 4096 := by
    rw [hkept, ← wrapPc_toNat]
    exact wrapPc_add_toNat s.pc 2
  exact runsAs_of_commitPc h (fun p hp => hframe p (fun hq => hp (List.mem_cons_of_mem _ hq))) hnext heffect hd hs

section

variable {x : Nibble} {b : Byte} {w : Word} {n : Nat} {f : Nat → Byte}

theorem runsAs_of_writeV (h : exec i s = .next (s.timerTick.writeV x b).advance)
    (hd : ∀ x, i ≠ .ldDTVx x := by simp) (hs : ∀ x, i ≠ .ldSTVx x := by simp) :
    RunsAs i s [.registers] (s.pc.toNat + 2) (fun t => ∀ r, t.readV r = if r = x then b else s.readV r) :=
  runsAs_of_advance h (OnlyChanges.refl _ s).timerTick.writeV (fun r => s.timerTick.readV_writeV x r b)
    (hd := hd) (hs := hs)

theorem runsAs_of_writeV_toNat (h : exec i s = .next (s.timerTick.writeV x b).advance) (hb : b.toNat = n)
    (hd : ∀ x, i ≠ .ldDTVx x := by simp) (hs : ∀ x, i ≠ .ldSTVx x := by simp) :
    RunsAs i s [.registers] (s.pc.toNat + 2)
      (fun t => ∀ r, (t.readV r).toNat = if r = x then n else (s.readV r).toNat) :=
  (runsAs_of_writeV h hd hs).imp (fun t ht r => by rw [ht r, apply_ite BitVec.toNat, hb])

theorem runsAs_of_setIndex (h : exec i s = .next (s.timerTick.setIndex w).advance) (hw : w.toNat = n)
    (hd : ∀ x, i ≠ .ldDTVx x := by simp) (hs : ∀ x, i ≠ .ldSTVx x := by simp) :
    RunsAs i s [.index] (s.pc.toNat + 2) (fun t => t.index.toNat = n) :=
  runsAs_of_advance h (OnlyChanges.refl _ s).timerTick.setIndex hw (hd := hd) (hs := hs)

/-- A block of bytes stored from `I` on: each is at its own offset, and no other byte has changed (R66). -/
theorem runsAs_of_memWriteBlock (h : exec i s = .next (s.timerTick.memWriteBlock (s.effAddr 0) f n).advance)
    (hn : n ≤ 4096) (hd : ∀ x, i ≠ .ldDTVx x := by simp) (hs : ∀ x, i ≠ .ldSTVx x := by simp) :
    RunsAs i s [.memory] (s.pc.toNat + 2) (fun t =>
      (∀ j, j < n → t.memRead (s.effAddr j) = f j) ∧
      (∀ a, (∀ j, j < n → a % 4096 ≠ s.effAddr j % 4096) → t.memRead a = s.memRead a)) := by
  refine runsAs_of_advance h ((OnlyChanges.refl _ s).timerTick.memWriteBlock n) ⟨fun j hj => ?_, fun a ha => ?_⟩
    (hd := hd) (hs := hs)
  · exact s.timerTick.memRead_memWriteBlock (s.effAddr 0) f n j hj hn
  · exact s.timerTick.memRead_memWriteBlock_frame (s.effAddr 0) f n a (fun j hj => (ha j hj).symm)

end

/-! ### Blocks (R143 to R145) -/

/-- Settles O34: register number `r` is byte number `r` of the stored block. -/
theorem blockStoreWritesV0ToVx : Obligations.BlockStoreWritesV0ToVx := by
  unfold Obligations.BlockStoreWritesV0ToVx
  intro x s
  refine (runsAs_of_memWriteBlock rfl (by omega)).imp (fun t ⟨hblock, hframe⟩ => ⟨fun r hr => ?_, fun a ha => ?_⟩)
  · rw [hblock r.toNat (by omega), regOfNat_toNat]
  · exact hframe a (fun j hj => ha j (by omega))

/-- Settles O35, from what a block load of `x + 1` registers leaves in each. -/
theorem blockLoadReadsV0ToVx : Obligations.BlockLoadReadsV0ToVx := by
  unfold Obligations.BlockLoadReadsV0ToVx
  intro x s
  refine runsAs_of_advance rfl ((OnlyChanges.refl _ s).timerTick.loadRegs (x.toNat + 1)) (fun r => ?_)
  exact (s.timerTick.readV_loadRegs (x.toNat + 1) (by omega) r).trans (if_congr Nat.lt_succ_iff rfl rfl)

theorem bcdDigit_toNat (b : Byte) :
    (bcdDigit b 0).toNat = b.toNat / 100 ∧ (bcdDigit b 1).toNat = b.toNat / 10 % 10 ∧
      (bcdDigit b 2).toNat = b.toNat % 10 := by
  have := b.isLt
  simp only [bcdDigit, BitVec.toNat_ofNat]
  omega

/-- Settles O36: the stored block is the three digits. -/
theorem bcdStoreWritesThreeDigits : Obligations.BcdStoreWritesThreeDigits := by
  unfold Obligations.BcdStoreWritesThreeDigits
  intro x s
  obtain ⟨hhundreds, htens, hones⟩ := bcdDigit_toNat (s.readV x)
  refine (runsAs_of_memWriteBlock (f := bcdDigit (s.readV x)) (n := 3) rfl (by omega)).imp
    (fun t ⟨hblock, hframe⟩ => ⟨?_, ?_, ?_, hframe⟩)
  · rw [hblock 0 (by omega), hhundreds]
  · rw [hblock 1 (by omega), htens]
  · rw [hblock 2 (by omega), hones]

/-! ### One register or `I` (R140 to R142, R146, R147) -/

/-- Settles O32: the words are the encodings, and one register is written. -/
theorem immediateLoadAndCopyWriteOneRegister : Obligations.ImmediateLoadAndCopyWriteOneRegister := by
  unfold Obligations.ImmediateLoadAndCopyWriteOneRegister
  intro x y kk s
  exact ⟨decode_ofNat rfl (formatXK_toNat _ _ _), runsAs_of_writeV rfl, decode_ofNat rfl (formatXYN_toNat _ _ _ _),
    runsAs_of_writeV rfl⟩

/-- Settles O33: the zero-extended address is written to `I`. -/
theorem loadIndexTakesItsAddress : Obligations.LoadIndexTakesItsAddress := by
  unfold Obligations.LoadIndexTakesItsAddress
  intro nnn s
  exact ⟨decode_ofNat rfl (formatA_toNat _ _), runsAs_of_setIndex rfl (addrWord_toNat nnn)⟩

/-- The encoding of the format with a fixed low byte `kk`, in the order the statements write it (R72). -/
theorem formatXK_toNat_right_comm (op x : Nibble) (kk : Byte) :
    (formatXK op x kk).toNat = op.toNat * 4096 + kk.toNat + x.toNat * 256 := by
  rw [formatXK_toNat, Nat.add_right_comm]

/-- Settles O37: the product is formed on the whole byte and fits in 16 bits. -/
theorem glyphAddressIsFiveTimesTheByte : Obligations.GlyphAddressIsFiveTimesTheByte := by
  unfold Obligations.GlyphAddressIsFiveTimesTheByte
  intro x s
  exact ⟨decode_ofNat rfl (formatXK_toNat_right_comm _ _ _), runsAs_of_setIndex rfl (glyphAddr_toNat (s.readV x))⟩

/-- Settles O38: the value written is the timer's after its tick. -/
theorem delayTimerIsReadAfterItsTick : Obligations.DelayTimerIsReadAfterItsTick := by
  unfold Obligations.DelayTimerIsReadAfterItsTick
  intro x s
  exact ⟨decode_ofNat rfl (formatXK_toNat_right_comm _ _ _), runsAs_of_writeV_toNat rfl (tickDown_toNat s.dt)⟩

/-! ### The timers (R148, R149) -/

/-- Settles O39: the write of one timer replaces what its tick left, the other keeps its ticked value. -/
theorem timersAreSetAfterTheTick : Obligations.TimersAreSetAfterTheTick := by
  unfold Obligations.TimersAreSetAfterTheTick
  intro x s
  have hpc : PcBecomes (s.pc.toNat + 2) s.advance := wrapPc_add_toNat s.pc 2
  exact ⟨decode_ofNat rfl (formatXK_toNat_right_comm _ _ _),
    ⟨_, rfl, rfl, tickDown_toNat s.st, hpc, (OnlyChanges.refl _ s).timerTick.setDT.advance⟩,
    decode_ofNat rfl (formatXK_toNat_right_comm _ _ _),
    ⟨_, rfl, rfl, tickDown_toNat s.dt, hpc, (OnlyChanges.refl _ s).timerTick.setST.advance⟩⟩

/-! ### The key wait (R151) -/

theorem exec_ldVxK_of_key {key : Option Nibble} (x : Nibble) (hk : s.key = key) :
    exec (.ldVxK x) s = .next (s.timerTick.waitKey x key) := hk ▸ rfl

/-- Settles O40: without a key `pc` itself is committed, with one its code is written to one register. -/
theorem keyWaitRetriesUntilAKey : Obligations.KeyWaitRetriesUntilAKey := by
  unfold Obligations.KeyWaitRetriesUntilAKey
  refine fun x s => ⟨fun hk => ?_, fun k hk => ?_⟩
  · exact runsAs_of_commitPc (exec_ldVxK_of_key x hk) (OnlyChanges.refl _ s).timerTick rfl trivial
  · exact runsAs_of_writeV_toNat (exec_ldVxK_of_key x hk) (keyByte_toNat k)

end Sys2Proof.Machine
end

section
/-! PROOFS. The family of spec/44_arithmetic_logic.md: ADD, SUB and SUBN (R160 to R163), AND, OR and XOR (R164 to
R166), SHR and SHL (R167, R168). Each form ends in one of three writes: a result (O43), a result given by its bits
(O46), or a result and then its flag (R171). What each write leaves comes first, then the flags in numbers. -/

namespace Sys2Proof.Machine

variable {s : State} {i : Instr} {x : Nibble} {b : Byte}

/-! ### What the writes of the family leave in the registers (R171) -/

/-- A result and its flag are written, the flag last: in numbers, what each register then holds (R171, D10). -/
theorem runsAs_of_writeResultThenFlag {f : Bool} {result flag : Nat}
    (h : exec i s = .next (s.timerTick.writeResultThenFlag x b f).advance) (hf : (flagByte f).toNat = flag)
    (hb : b.toNat = result) (hd : ∀ x, i ≠ .ldDTVx x := by simp) (hs : ∀ x, i ≠ .ldSTVx x := by simp) :
    RunsAs i s [.registers] (s.pc.toNat + 2) (fun t =>
      ∀ r, (t.readV r).toNat = if r = 0xF#4 then flag else if r = x then result else (s.readV r).toNat) := by
  refine runsAs_of_advance h (OnlyChanges.refl _ s).timerTick.writeResultThenFlag (fun r => ?_) (hd := hd) (hs := hs)
  rw [State.readV_advance, State.readV_writeResultThenFlag, apply_ite BitVec.toNat, apply_ite BitVec.toNat, hf, hb]
  rfl

/-- A result given bit by bit is written to one register. -/
theorem runsAs_of_writeV_bits {bit : Nat → Bool} (h : exec i s = .next (s.timerTick.writeV x b).advance)
    (hb : ∀ j, b.getLsbD j = bit j) (hd : ∀ x, i ≠ .ldDTVx x := by simp) (hs : ∀ x, i ≠ .ldSTVx x := by simp) :
    RunsAs i s [.registers] (s.pc.toNat + 2) (fun t =>
      ∀ r j, (t.readV r).getLsbD j = if r = x then bit j else (s.readV r).getLsbD j) :=
  (runsAs_of_writeV h hd hs).imp (fun t ht r j => by rw [ht r, apply_ite (BitVec.getLsbD · j), hb])

/-! ### The flags in numbers (R160, R162, R163, R167, R168) -/

theorem flagByte_decide_toNat (p : Prop) [Decidable p] : (flagByte (decide p)).toNat = if p then 1 else 0 := by
  rw [flagByte_toNat, if_congr decide_eq_true_iff rfl rfl]

theorem flagByte_carryFlag_toNat (a b : Byte) :
    (flagByte (carryFlag a b)).toNat = if a.toNat + b.toNat > 255 then 1 else 0 := flagByte_decide_toNat _

theorem flagByte_noBorrowFlag_toNat (a b : Byte) :
    (flagByte (noBorrowFlag a b)).toNat = if b.toNat ≤ a.toNat then 1 else 0 := flagByte_decide_toNat _

theorem flagByte_getLsbD_toNat (b : Byte) (j : Nat) : (flagByte (b.getLsbD j)).toNat = b.toNat / 2 ^ j % 2 := by
  rw [flagByte_toNat, BitVec.getLsbD, ← Nat.toNat_testBit, Bool.toNat, Bool.cond_eq_ite]

theorem flagByte_evictedLow_toNat (b : Byte) : (flagByte (evictedLow b)).toNat = b.toNat % 2 := by
  rw [evictedLow, flagByte_getLsbD_toNat, Nat.pow_zero, Nat.div_one]

/-- The high bit of a byte is its quotient by 128, which is below 2. -/
theorem flagByte_evictedHigh_toNat (b : Byte) : (flagByte (evictedHigh b)).toNat = b.toNat / 128 := by
  rw [evictedHigh, flagByte_getLsbD_toNat]
  omega

/-! ### The results in numbers (R162, R163, R167, R168) -/

theorem byte_sub_toNat (a b : Byte) : (a - b).toNat = (a.toNat + 256 - b.toNat) % 256 := by
  rw [BitVec.toNat_sub]
  omega

theorem byte_shiftLeft_one_toNat (b : Byte) : (b <<< 1).toNat = 2 * b.toNat % 256 := by
  rw [BitVec.toNat_shiftLeft, Nat.shiftLeft_eq, Nat.mul_comm]

theorem byte_ushiftRight_one_toNat (b : Byte) : (b >>> 1).toNat = b.toNat / 2 := by
  rw [BitVec.toNat_ushiftRight, Nat.shiftRight_one]

/-! ### Sums and differences (R160 to R163) -/

/-- Settles O42: the sum of the two bytes is written, then its carry. -/
theorem addWritesSumAndCarry : Obligations.AddWritesSumAndCarry := by
  unfold Obligations.AddWritesSumAndCarry
  intro x y s
  exact runsAs_of_writeResultThenFlag rfl (flagByte_carryFlag_toNat _ _) (BitVec.toNat_add _ _)

/-- Settles O43: the word is the encoding, and the sum alone is written. -/
theorem addImmediateHasNoFlag : Obligations.AddImmediateHasNoFlag := by
  unfold Obligations.AddImmediateHasNoFlag
  intro x kk s
  exact ⟨decode_ofNat rfl (formatXK_toNat _ _ _), runsAs_of_writeV_toNat rfl (BitVec.toNat_add _ _)⟩

/-- Settles O44: the flag is the comparison of the operands as they were, equal ones counted as no borrow (D17). -/
theorem subWritesDifferenceAndNoBorrow : Obligations.SubWritesDifferenceAndNoBorrow := by
  unfold Obligations.SubWritesDifferenceAndNoBorrow
  intro x y s
  exact runsAs_of_writeResultThenFlag rfl (flagByte_noBorrowFlag_toNat _ _) (byte_sub_toNat _ _)

/-- Settles O45: as for SUB, with the operands exchanged. -/
theorem subnWritesReverseDifferenceAndNoBorrow : Obligations.SubnWritesReverseDifferenceAndNoBorrow := by
  unfold Obligations.SubnWritesReverseDifferenceAndNoBorrow
  intro x y s
  exact runsAs_of_writeResultThenFlag rfl (flagByte_noBorrowFlag_toNat _ _) (byte_sub_toNat _ _)

/-! ### Bitwise logic (R164 to R166) -/

/-- Settles O46: a bit of the result is the operation on the two bits, and one register is written (D16). -/
theorem logicWritesBitwiseResultOnly : Obligations.LogicWritesBitwiseResultOnly := by
  unfold Obligations.LogicWritesBitwiseResultOnly
  intro x y s
  exact ⟨runsAs_of_writeV_bits rfl (fun _ => BitVec.getLsbD_and),
    runsAs_of_writeV_bits rfl (fun _ => BitVec.getLsbD_or), runsAs_of_writeV_bits rfl (fun _ => BitVec.getLsbD_xor)⟩

/-! ### Shifts (R167, R168) -/

/-- Settles O47: the half is written, then the bit that fell out below; `y` is not used. -/
theorem shiftRightHalvesAndEvictsLowBit : Obligations.ShiftRightHalvesAndEvictsLowBit := by
  unfold Obligations.ShiftRightHalvesAndEvictsLowBit
  intro x y s
  exact runsAs_of_writeResultThenFlag rfl (flagByte_evictedLow_toNat _) (byte_ushiftRight_one_toNat _)

/-- Settles O48: the double is written, then the bit that fell out above; `y` is not used. -/
theorem shiftLeftDoublesAndEvictsHighBit : Obligations.ShiftLeftDoublesAndEvictsHighBit := by
  unfold Obligations.ShiftLeftDoublesAndEvictsHighBit
  intro x y s
  exact runsAs_of_writeResultThenFlag rfl (flagByte_evictedHigh_toNat _) (byte_shiftLeft_one_toNat _)

end Sys2Proof.Machine
end

section
/-! PROOFS. The family of spec/45_draw.md: the toggle of one cell (R180) and DRW (R181 to R184). The cells that the
sprite of DRW covers are those its drawing toggles, each of them once (R184 (c)); from that follow the buffer and the
flag after one drawing, and after two. -/

namespace Sys2Proof.Machine

variable {s t : State} {x y n : Nibble} {cx : BitVec 6} {cy : BitVec 5}

/-- Settles O50, from what a toggle leaves in each cell. -/
theorem toggleReportsOnToOff : Obligations.ToggleReportsOnToOff := by
  unfold Obligations.ToggleReportsOnToOff
  intro fb cx cy
  have hflip : fbGet (togglePixel fb cx cy).1 cx cy = !fbGet fb cx cy := by
    rw [fbGet_togglePixel, if_pos ⟨rfl, rfl⟩]
  refine ⟨fun hon => ⟨hon, by rw [hflip, hon, Bool.not_true]⟩,
    fun hoff => ⟨hoff, by rw [hflip, hoff, Bool.not_false]⟩, fun cx' cy' hne => ?_⟩
  rw [fbGet_togglePixel, if_neg (fun ⟨hx, hy⟩ => hne (Prod.ext hx hy))]

/-! ### One drawing (R181 to R183) -/

theorem flagByte_eq_one_iff (b : Bool) : flagByte b = 0x01#8 ↔ b = true := by cases b <;> decide

/-- The cells the sprite covers are those its drawing toggles (R181, R183). -/
theorem spriteCovers_iff_mem_spriteCells : SpriteCovers s x y n cx cy ↔
    (cx, cy) ∈ spriteCells (s.readV x) (s.readV y) (fun r => s.memRead (s.effAddr r)) n.toNat := by
  rw [mem_spriteCells]
  refine exists₂_congr fun r c => and_congr_right' (and_congr_right' ?_)
  rw [Prod.mk.injEq, ← BitVec.toNat_inj, ← BitVec.toNat_inj, pixelColumn_toNat, pixelRow_toNat, ← and_assoc,
    and_comm]
  rfl

theorem pixel_drawResult_of_covers (h : SpriteCovers s x y n cx cy) :
    fbGet (s.drawResult x y n).1 cx cy = !s.pixel cx cy := by
  rw [State.drawResult, fbGet_drawSprite _ _ _ _ (by omega), if_pos (spriteCovers_iff_mem_spriteCells.mp h)]
  rfl

theorem pixel_drawResult_of_not_covers (h : ¬ SpriteCovers s x y n cx cy) :
    fbGet (s.drawResult x y n).1 cx cy = s.pixel cx cy := by
  rw [State.drawResult, fbGet_drawSprite _ _ _ _ (by omega), if_neg (mt spriteCovers_iff_mem_spriteCells.mpr h)]
  rfl

/-- A drawing collides exactly when a covered cell was on (R182). -/
theorem drawResult_collision_iff :
    (s.drawResult x y n).2 = true ↔ ∃ cx cy, SpriteCovers s x y n cx cy ∧ s.pixel cx cy = true := by
  simp only [spriteCovers_iff_mem_spriteCells]
  rw [State.drawResult, drawSprite_collision _ _ _ _ (by omega), List.any_eq_true, Prod.exists]
  rfl

/-- Settles O51: the buffer and the flag written are those of the drawing, and no other register is written. -/
theorem drawTogglesCoveredCellsAndReportsCollision : Obligations.DrawTogglesCoveredCellsAndReportsCollision := by
  unfold Obligations.DrawTogglesCoveredCellsAndReportsCollision
  intro x y n s
  have hflag (g : FrameBuffer) (b : Byte) : ((s.timerTick.setFb g).writeV flagReg b).advance.readV 0xF#4 = b :=
    (State.readV_writeV _ flagReg flagReg b).trans (if_pos rfl)
  refine runsAs_of_advance rfl (OnlyChanges.refl _ s).timerTick.setFb.writeV
    ⟨fun _ _ => pixel_drawResult_of_covers, fun _ _ => pixel_drawResult_of_not_covers, ?_, ?_, fun r hr => ?_⟩
  · rw [hflag]
    cases (s.timerTick.drawResult x y n).2
    · exact .inl rfl
    · exact .inr rfl
  · rw [hflag, flagByte_eq_one_iff]
    exact drawResult_collision_iff
  · exact State.readV_writeV_other _ flagReg r _ hr

/-! ### Two drawings (R184 (d); log entry 18) -/

theorem RunsAs.of_exec {i : Instr} {ps : List Part} {next : Nat} {effect : State → Prop}
    (h : RunsAs i s ps next effect) (hexec : exec i s = .next t) :
    OnlyChanges (.pc :: .delayTimer :: .soundTimer :: ps) s t ∧ effect t := by
  obtain ⟨t', hexec', -, -, hframe, heffect⟩ := h
  obtain rfl := Host.Outcome.next.inj (hexec'.symm.trans hexec)
  exact ⟨hframe, heffect⟩

/-- Which cells are covered depends on the two coordinate registers, `I` and memory alone. -/
theorem spriteCovers_congr (hx : t.readV x = s.readV x) (hy : t.readV y = s.readV y) (hindex : t.index = s.index)
    (hmem : ∀ a, t.memRead a = s.memRead a) : SpriteCovers t x y n cx cy ↔ SpriteCovers s x y n cx cy := by
  simp only [SpriteCovers, hx, hy, hindex, hmem]

theorem byte_ne_zero_iff_bit (b : Byte) : b ≠ 0x00#8 ↔ ∃ c, c < 8 ∧ b.getLsbD (7 - c) = true := by
  constructor
  · intro h
    by_contra hclear
    refine h (BitVec.eq_of_getLsbD_eq fun j hj => ?_)
    have hbit : ¬ b.getLsbD (7 - (7 - j)) = true := fun hb => hclear ⟨7 - j, by omega, hb⟩
    rw [show 7 - (7 - j) = j by omega] at hbit
    simpa using hbit
  · rintro ⟨c, -, hc⟩ rfl
    simp at hc

/-- A sprite covers a cell exactly when one of its bytes is not zero (R182). -/
theorem exists_spriteCovers_iff : (∃ cx cy, SpriteCovers s x y n cx cy) ↔
    ∃ r, r < n.toNat ∧ s.memRead (s.index.toNat + r) ≠ 0x00#8 := by
  simp only [byte_ne_zero_iff_bit]
  constructor
  · rintro ⟨cx, cy, r, c, hr, hc, -, -, hbit⟩
    exact ⟨r, hr, c, hc, hbit⟩
  · rintro ⟨r, hr, c, hc, hbit⟩
    exact ⟨pixelColumn (s.readV x) c, pixelRow (s.readV y) r, r, c, hr, hc, pixelColumn_toNat _ _, pixelRow_toNat _ _,
      hbit⟩

/-- Settles O52: both drawings cover the same cells, so each is flipped twice and stands inverted in between. -/
theorem drawingTwiceRestoresTheBuffer : Obligations.DrawingTwiceRestoresTheBuffer := by
  unfold Obligations.DrawingTwiceRestoresTheBuffer
  intro x y n s t u hx hy hst htu
  obtain ⟨hframe, hflip, hkeep, -, hhit, hregs⟩ := (drawTogglesCoveredCellsAndReportsCollision x y n s).of_exec hst
  obtain ⟨-, hflip', hkeep', -, hhit', -⟩ := (drawTogglesCoveredCellsAndReportsCollision x y n t).of_exec htu
  have hsame (cx cy) : SpriteCovers t x y n cx cy ↔ SpriteCovers s x y n cx cy :=
    spriteCovers_congr (hregs x hx) (hregs y hy) (hframe .index (by simp)) (hframe .memory (by simp))
  have hsecond : u.readV 0xF#4 = 0x01#8 ↔ ∃ cx cy, SpriteCovers s x y n cx cy ∧ s.pixel cx cy = false := by
    rw [hhit']
    refine exists₂_congr fun cx cy => (and_congr_left' (hsame cx cy)).trans (and_congr_right fun hc => ?_)
    rw [hflip cx cy hc, Bool.not_eq_true']
  refine ⟨fun cx cy => ?_, hsecond, fun hfirst => ?_⟩
  · by_cases hc : SpriteCovers s x y n cx cy
    · rw [hflip' cx cy ((hsame cx cy).mpr hc), hflip cx cy hc, Bool.not_not]
    · rw [hkeep' cx cy (mt (hsame cx cy).mp hc), hkeep cx cy hc]
  · have hoff (cx cy) (hc : SpriteCovers s x y n cx cy) : s.pixel cx cy = false := by
      rw [← Bool.not_eq_true]
      intro hon
      exact absurd (hfirst.symm.trans (hhit.mpr ⟨cx, cy, hc, hon⟩)) (by decide)
    rw [hsecond, ← exists_spriteCovers_iff (x := x) (y := y)]
    exact exists₂_congr fun cx cy => and_iff_left_of_imp (hoff cx cy)

end Sys2Proof.Machine
end

section
/-! PROOFS. The family of spec/46_random.md: RND (R190). -/

namespace Sys2Proof.Machine

/-- Settles O49: the word is the encoding, and a bit of the one register written is the and of the two bits. -/
theorem randomByteIsMasked : Obligations.RandomByteIsMasked := by
  unfold Obligations.RandomByteIsMasked
  intro x kk s
  exact ⟨decode_ofNat rfl (formatXK_toNat _ _ _), runsAs_of_writeV_bits rfl (fun _ => BitVec.getLsbD_and)⟩

end Sys2Proof.Machine
end

section
/-! PROOFS. The family of spec/47_clear.md: CLS (R195) and the frame-buffer read port (R11). -/

namespace Sys2Proof.Machine

variable {s : State} {cx : BitVec 6} {cy : BitVec 5}

/-- The read port of R11 shows the cell it is asked for. -/
@[simp] theorem fbPixel_eq_pixel : fbPixel s cx cy = s.pixel cx cy := rfl

/-- Settles O53: the word is the encoding of CLS, and the buffer written is the cleared one, off in every cell. -/
theorem clearTurnsEveryCellOff : Obligations.ClearTurnsEveryCellOff := by
  unfold Obligations.ClearTurnsEveryCellOff
  intro s
  have hoff (cx : BitVec 6) (cy : BitVec 5) : (s.timerTick.setFb fbClear).advance.pixel cx cy = false := by
    rw [State.pixel_advance, State.pixel_setFb, fbGet_fbClear]
  exact ⟨encodedInstructionDecodesBack _ .cls rfl, fun _ _ => fbPixel_eq_pixel,
    runsAs_of_advance rfl (OnlyChanges.refl _ s).timerTick.setFb
      fun cx cy => ⟨hoff cx cy, fbPixel_eq_pixel.trans (hoff cx cy)⟩⟩

end Sys2Proof.Machine
end

section
/-! PROOFS. The families of spec/60_exceptions.md and spec/70_reset_and_hazards.md: the faults of execution (R204,
R207), the halted block (R208), and the load port from reset to the first step (R231 to R233). Beside them the canonical
form of memory (log entry 10), which its reads determine. -/

namespace Sys2Proof.Machine

variable {s t : State} {ps : List Part}

/-! ### The faults of execution (R204, R207) -/

/-- What leaves the fault state out of its changes takes a running block to a running block. -/
theorem OnlyChanges.not_halted (h : OnlyChanges ps s t) (hf : .faultState ∉ ps) (hs : s.halted = false) :
    ¬ t.halted = true := by
  obtain ⟨hhalted, -⟩ := h .faultState hf
  simp [hhalted, hs]

/-- Settles O16: CALL and RET fault at their end of the stack and complete everywhere else, and no other instruction
changes the fault state. -/
theorem onlyCallAndRetFault : Obligations.OnlyCallAndRetFault := by
  unfold Obligations.OnlyCallAndRetFault
  intro i s t h hs ht
  cases i
  case call nnn =>
    by_cases hfull : s.sp.val = 12
    · obtain rfl := Host.Outcome.next.inj ((exec_call_of_full nnn hfull).symm.trans h)
      exact .inl ⟨⟨nnn, rfl⟩, hfull, rfl⟩
    · obtain ⟨hframe, -⟩ := (callPushesReturnAddressAndJumps nnn s (by omega)).of_exec h
      exact absurd ht (hframe.not_halted (by simp) hs)
  case ret =>
    by_cases hempty : s.sp.val = 0
    · obtain rfl := Host.Outcome.next.inj ((exec_ret_of_empty hempty).symm.trans h)
      exact .inr ⟨rfl, hempty, rfl⟩
    · have hlive : s.sp.val = (⟨s.sp.val - 1, by omega⟩ : Fin 12).val + 1 :=
        (Nat.sub_add_cancel (by omega)).symm
      obtain ⟨hframe, -⟩ := (returnPopsItsTarget s _ hlive).of_exec h
      exact absurd ht (hframe.not_halted (by simp) hs)
  all_goals exact absurd ht ((exec_onlyChanges h).not_halted (by simp [changedParts]) hs)

/-! ### Clock edges that change nothing (R208, R231) -/

theorem State.stepEdge_of_halted (hs : s.halted = true) (i : StepInput) : s.stepEdge i = s := by
  rcases s.stepEdge_cases i with ⟨-, h⟩ | ⟨hrun, -⟩
  · exact h
  · simp [hs] at hrun

/-- Settles O13: of the edges without reset, one that asks for a step finds the block halted, and no other reaches the
load port outside the boot phase. -/
theorem haltedBlockTakesNoStep : Obligations.HaltedBlockTakesNoStep := by
  unfold Obligations.HaltedBlockTakesNoStep
  refine fun image s e hs => ⟨step_of_halted hs, fun hrst hidle => ?_⟩
  rcases clockEdge_cases image e s with ⟨hreset, -⟩ | ⟨-, -, hstep⟩ | ⟨-, hnoStep, -, hboot, -⟩ | ⟨-, -, -, hkeep⟩
  · simp [hrst] at hreset
  · rw [hstep, State.stepEdge_of_halted hs]
  · simp [hnoStep, hboot] at hidle
  · exact hkeep

/-- Every step ends the boot phase, one that faults too (R231, log entry 17). -/
theorem boot_of_step (h : step s = .next t) : t.boot = false := by
  obtain ⟨-, ⟨raw, -, rfl⟩ | ⟨i, u, -, -, rfl⟩⟩ := step_cases h
  · exact State.endStep_boot _
  · exact u.endStep_boot

theorem clockEdge_outside_boot (image : Vector Byte 4096) {e : EdgeInput} (hrst : e.rst = false)
    (hstep : e.stepEn = false) (hboot : s.boot = false) : clockEdge image e s = s := by
  simp [clockEdge, hrst, hstep, hboot]

/-- Settles O57: the step has ended the boot phase, and outside it an edge without reset and step has no effect. -/
theorem loadPortIsIgnoredAfterTheFirstStep : Obligations.LoadPortIsIgnoredAfterTheFirstStep := by
  unfold Obligations.LoadPortIsIgnoredAfterTheFirstStep
  intro image s t e h hrst hstep
  exact clockEdge_outside_boot image hrst hstep (boot_of_step h)

/-! ### The program load (R233, D25) -/

theorem clockEdge_of_load (image : Vector Byte 4096) {e : EdgeInput} (hrst : e.rst = false) (hstep : e.stepEn = false)
    (hld : e.ldEn = true) (hboot : s.boot = true) : clockEdge image e s = s.loadByte e.ldData := by
  simp [clockEdge, hrst, hstep, hld, hboot]

/-- Load edges, one for each byte of a program, are the program load. -/
theorem foldl_clockEdge_eq_loadRom (image : Vector Byte 4096) {e : EdgeInput} (hrst : e.rst = false)
    (hstep : e.stepEn = false) (hld : e.ldEn = true) (rom : List Byte) (hboot : s.boot = true) :
    rom.foldl (fun u b => clockEdge image { e with ldData := b } u) s = s.loadRom rom := by
  induction rom generalizing s with
  | nil => rfl
  | cons b rest ih =>
    have hload : clockEdge image { e with ldData := b } s = s.loadByte b :=
      clockEdge_of_load image hrst hstep hld hboot
    rw [List.foldl_cons, hload]
    exact ih hboot

theorem State.loadRom_cons (s : State) (b : Byte) (rest : List Byte) :
    s.loadRom (b :: rest) = (s.loadByte b).loadRom rest := rfl

theorem State.loadByte_ldPtr_toNat (s : State) (b : Byte) : (s.loadByte b).ldPtr.toNat = (s.ldPtr.toNat + 1) % 4096 :=
  BitVec.toNat_add _ _

theorem State.loadRom_boot (s : State) (rom : List Byte) : (s.loadRom rom).boot = s.boot := by
  induction rom generalizing s with
  | nil => rfl
  | cons b rest ih => exact ih (s.loadByte b)

theorem State.loadRom_ldPtr_toNat (s : State) (rom : List Byte) :
    (s.loadRom rom).ldPtr.toNat = (s.ldPtr.toNat + rom.length) % 4096 := by
  induction rom generalizing s with
  | nil => exact (Nat.mod_eq_of_lt s.ldPtr.isLt).symm
  | cons b rest ih =>
    rw [State.loadRom_cons, ih, State.loadByte_ldPtr_toNat, List.length_cons]
    omega

theorem OnlyChanges.loadByte (h : OnlyChanges ps s t) {b : Byte} (hm : .memory ∈ ps) (hl : .loadPort ∈ ps) :
    OnlyChanges ps s (t.loadByte b) :=
  fun p hp => (h p hp).trans (by cases p <;> simp_all [Unchanged])

theorem OnlyChanges.loadRom (h : OnlyChanges ps s t) (rom : List Byte) (hm : .memory ∈ ps) (hl : .loadPort ∈ ps) :
    OnlyChanges ps s (t.loadRom rom) := by
  induction rom generalizing t with
  | nil => exact h
  | cons b rest ih => exact ih (h.loadByte hm hl)

theorem State.Inv.loadRom (h : s.Inv) (rom : List Byte) : (s.loadRom rom).Inv := by
  induction rom generalizing s with
  | nil => exact h
  | cons b rest ih => exact ih h.loadByte

theorem State.memRead_loadByte (s : State) (b : Byte) (a : Nat) :
    (s.loadByte b).memRead a = if s.ldPtr.toNat % 4096 = a % 4096 then b else s.memRead a :=
  s.memRead_memWrite s.ldPtr.toNat a b

/-- At an address that no byte of the program reaches, the program load leaves the byte as it was. -/
theorem State.memRead_loadRom_frame (s : State) (rom : List Byte) (a : Nat)
    (h : ∀ i, i < rom.length → a % 4096 ≠ (s.ldPtr.toNat + i) % 4096) : (s.loadRom rom).memRead a = s.memRead a := by
  induction rom generalizing s with
  | nil => rfl
  | cons b rest ih =>
    simp only [List.length_cons] at h
    have hfirst : s.ldPtr.toNat % 4096 ≠ a % 4096 := (h 0 (Nat.succ_pos _)).symm
    have hrest (i : Nat) (hi : i < rest.length) : a % 4096 ≠ ((s.loadByte b).ldPtr.toNat + i) % 4096 := by
      have := h (i + 1) (by omega)
      rw [State.loadByte_ldPtr_toNat]
      omega
    rw [State.loadRom_cons, ih _ hrest, State.memRead_loadByte, if_neg hfirst]

/-- A byte of the program that no later one overwrites, fewer than 4096 following it, reads back at its place. -/
theorem State.memRead_loadRom (s : State) (rom : List Byte) (i : Nat) (h : i < rom.length)
    (hlast : rom.length ≤ i + 4096) : (s.loadRom rom).memRead (s.ldPtr.toNat + i) = rom[i] := by
  induction rom generalizing s i with
  | nil => exact absurd h (Nat.not_lt_zero i)
  | cons b rest ih =>
    simp only [List.length_cons] at h hlast
    rw [State.loadRom_cons]
    cases i with
    | zero =>
      have hkept (j : Nat) (hj : j < rest.length) :
          s.ldPtr.toNat % 4096 ≠ ((s.loadByte b).ldPtr.toNat + j) % 4096 := by
        rw [State.loadByte_ldPtr_toNat]
        omega
      rw [Nat.add_zero, State.memRead_loadRom_frame _ _ _ hkept, State.memRead_loadByte, if_pos rfl]
      rfl
    | succ i =>
      have haddr : (s.ldPtr.toNat + (i + 1)) % 4096 = ((s.loadByte b).ldPtr.toNat + i) % 4096 := by
        rw [State.loadByte_ldPtr_toNat]
        omega
      rw [State.memRead_congr _ haddr]
      exact ih (s.loadByte b) i (by omega) (by omega)

/-- Settles O55: the edges are the program load, and its bytes, its frame and its pointer are those of `loadRom`. -/
theorem loadPortLaysOutTheProgram : Obligations.LoadPortLaysOutTheProgram := by
  unfold Obligations.LoadPortLaysOutTheProgram
  intro image e rom s hrst hstep hld hboot
  exact ⟨s.loadRom rom, (foldl_clockEdge_eq_loadRom image hrst hstep hld rom hboot).symm,
    (s.loadRom_boot rom).trans hboot, s.loadRom_ldPtr_toNat rom, s.memRead_loadRom rom, s.memRead_loadRom_frame rom,
    (OnlyChanges.refl _ s).loadRom rom (by simp) (by simp)⟩

/-! ### The launch state (R232, R233) -/

/-- A reset to an image is one block write of the image over the memory of the default reset (R40, R230). -/
theorem State.resetWith_eq_memWriteBlock (image : Vector Byte 4096) :
    State.resetWith image = State.reset.memWriteBlock 0 (fun a => image[a]?.getD 0) 4096 :=
  (State.memWriteBlock_eq _ _ _ _).symm

/-- Settles O56: the launch state is a program load from 0x200 on over the image, and both keep the invariant. -/
theorem launchStateHoldsImageAndProgram : Obligations.LaunchStateHoldsImageAndProgram := by
  unfold Obligations.LaunchStateHoldsImageAndProgram
  intro image rom
  have hptr : (State.resetWith image).ldPtr.toNat = 0x200 := rfl
  have hinv : (State.resetWith image).Inv := State.applyReset_inv image State.reset
  have hframe : OnlyChanges [.memory, .loadPort] State.reset (State.resetWith image) := by
    rw [State.resetWith_eq_memWriteBlock]
    exact (OnlyChanges.refl _ State.reset).memWriteBlock 4096 (by simp)
  refine ⟨(State.resetWith image).memRead_loadRom rom, fun a ha hfree => ?_,
    hframe.loadRom rom (by simp) (by simp), hinv.loadRom rom⟩
  have hkept : (State.launch image rom).memRead a = (State.resetWith image).memRead a := by
    refine State.memRead_loadRom_frame _ rom a fun i hi => ?_
    rw [hptr, Nat.mod_eq_of_lt ha]
    exact hfree i hi
  simp [hkept, State.memRead_resetWith, Nat.mod_eq_of_lt ha]

/-! ### The canonical form of memory (log entry 10) -/

theorem Memory.listed_of_lookup_ne {m : Memory} {a : Nat} (h : Memory.lookup m a ≠ Config.memInit a) :
    ∃ c ∈ m, c.1 = a := by
  by_contra habsent
  exact h (Memory.lookup_of_absent m a fun c hc e => habsent ⟨c, hc, e⟩)

/-- The first cell's address of a canonical memory is listed in every memory that reads the same there. -/
theorem Memory.listed_of_lookup_eq_head {k : Nat} {b : Byte} {rest m : Memory} (hwf : Memory.wf ((k, b) :: rest) = true)
    (h : Memory.lookup ((k, b) :: rest) k = Memory.lookup m k) : ∃ c ∈ m, c.1 = k := by
  obtain ⟨-, hb, -, -⟩ := (Memory.wf_cons_iff k b rest).mp hwf
  have hread : Memory.lookup m k = b := h.symm.trans (if_pos rfl)
  exact Memory.listed_of_lookup_ne (hread ▸ hb)

theorem Memory.head_le_of_mem {k a : Nat} {b : Byte} {rest : Memory} (hwf : Memory.wf ((k, b) :: rest) = true)
    (h : ∃ c ∈ (k, b) :: rest, c.1 = a) : k ≤ a := by
  obtain ⟨-, -, hrise, -⟩ := (Memory.wf_cons_iff k b rest).mp hwf
  obtain ⟨c, hc, rfl⟩ := h
  rcases List.mem_cons.mp hc with rfl | hc
  · exact Nat.le_refl _
  · exact Nat.le_of_lt (hrise c hc)

/-- Without its first cell a canonical memory reads as before everywhere but there. -/
theorem Memory.lookup_tail {k : Nat} {b : Byte} {rest : Memory} (hwf : Memory.wf ((k, b) :: rest) = true) (a : Nat) :
    Memory.lookup rest a = if k = a then Config.memInit a else Memory.lookup ((k, b) :: rest) a := by
  obtain ⟨-, -, hrise, -⟩ := (Memory.wf_cons_iff k b rest).mp hwf
  by_cases hka : k = a
  · subst hka
    rw [if_pos rfl, Memory.lookup_of_absent rest k fun c hc => Nat.ne_of_gt (hrise c hc)]
  · simp [Memory.lookup, hka]

/-- Settles O8, by induction over the cells: equal reads force the same first address, the lower of two would be
unlisted in the other memory, then the same first byte and the same reads of the rest. -/
theorem canonicalMemoriesWithEqualReadsAreEqual : Obligations.CanonicalMemoriesWithEqualReadsAreEqual := by
  unfold Obligations.CanonicalMemoriesWithEqualReadsAreEqual
  intro m
  induction m with
  | nil =>
    intro m' _ hwf' h
    cases m' with
    | nil => rfl
    | cons c' rest' =>
      obtain ⟨hk', -⟩ := (Memory.wf_cons_iff _ _ _).mp hwf'
      simpa using Memory.listed_of_lookup_eq_head hwf' (h _ hk').symm
  | cons c rest ih =>
    intro m' hwf hwf' h
    obtain ⟨k, b⟩ := c
    obtain ⟨hk, -, -, hrest⟩ := (Memory.wf_cons_iff k b rest).mp hwf
    have hlisted := Memory.listed_of_lookup_eq_head hwf (h k hk)
    cases m' with
    | nil => simp at hlisted
    | cons c' rest' =>
      obtain ⟨k', b'⟩ := c'
      obtain ⟨hk', -, -, hrest'⟩ := (Memory.wf_cons_iff k' b' rest').mp hwf'
      have hlisted' := Memory.listed_of_lookup_eq_head hwf' (h k' hk').symm
      obtain rfl : k = k' := Nat.le_antisymm (Memory.head_le_of_mem hwf hlisted') (Memory.head_le_of_mem hwf' hlisted)
      obtain rfl : b = b' := by simpa [Memory.lookup] using h k hk
      rw [ih rest' hrest hrest' fun a ha => by rw [Memory.lookup_tail hwf, Memory.lookup_tail hwf', h a ha]]

end Sys2Proof.Machine
end
